-- ==== Sys2Proof/Word.lean ====
section
/-! DEFINITION. The widths of the values of B64CODEC: bytes, register words, 6-bit values, 7-bit
codes and host byte offsets (00_scope.md R6, R9; 20_memory.md R30). Every value is unsigned. -/

namespace Sys2Proof

/-- A byte: bit 7 is its most significant bit (R9, R34). -/
abbrev Byte := BitVec 8

/-- A 32-bit register or bus word (R6 `BUS_DATA_BITS`, R15). -/
abbrev Word := BitVec 32

/-- A 6-bit value, the index into the forward table (R11). -/
abbrev Sextet := BitVec 6

/-- A 7-bit ASCII code, the index into the inverse table (R56). -/
abbrev Code := BitVec 7

/-- A host byte offset from the block's base (R6 `BUS_ADDR_BITS`, R30). -/
abbrev Offset := BitVec 18

end Sys2Proof
end

