-- ==== Sys2Proof/Syntax.lean ====
section
/-! DEFINITION. The commands of B64CODEC, one constructor per row of spec/opcode_table.json
(30_encoding.md R48 to R52). A command has no operand of its own (R49); a reserved command keeps the
code it was written with, the one field that tells the words of its row apart. -/

namespace Sys2Proof

/-- A command: what a word written to `CMD` means (R50, R51). -/
inductive Instr where
  /-- `NOP`, code 0x0 (R84). -/
  | nop
  /-- `ENCODE`, code 0x1 (R64). -/
  | encode
  /-- `DECODE`, code 0x2 (R75). -/
  | decode
  /-- `CLEAR`, code 0x3 (R85). -/
  | clear
  /-- A reserved code 0x4 to 0x7 (R86). -/
  | reserved47 (op : BitVec 4)
  /-- A reserved code 0x8 to 0xF (R86). -/
  | reserved8F (op : BitVec 4)
deriving DecidableEq, Repr

end Sys2Proof
end

