-- ==== Sys2Proof/WellFormed.lean ====
section
/-! DEFINITION. Which terms of `Instr` are commands: a reserved command's code lies in its row's
range, by the row's match and mask (30_encoding.md R50). -/

namespace Sys2Proof

/-- The range of R50 for each row: `0x4`/`0xC` is 0x4 to 0x7, `0x8`/`0x8` is 0x8 to 0xF. -/
def Instr.wf : Instr → Bool
  | .nop => true
  | .encode => true
  | .decode => true
  | .clear => true
  | .reserved47 op => op &&& 0xC#4 == 0x4#4
  | .reserved8F op => op &&& 0x8#4 == 0x8#4

/-- `i` is a command of the opcode map. -/
abbrev Instr.WellFormed (i : Instr) : Prop := i.wf = true

end Sys2Proof
end

