-- ==== Sys2Proof/Decode.lean ====
section
/-! DEFINITION. The decoder and the encoder of command words (30_encoding.md R48 to R52).
The decoder of a word reads `OP = word[3:0]` and nothing else (R48) and is total (R51). On bytes it
rejects, by name, whatever is not exactly one 32-bit word (R52). -/

namespace Sys2Proof

/-- The field `OP`, bits 3:0 of a command word (R48). -/
def opField (w : Word) : BitVec 4 := w.extractLsb' 0 4

/-- The command that a code selects (R50). -/
def decodeOp (op : BitVec 4) : Instr :=
  if op = 0x0#4 then .nop
  else if op = 0x1#4 then .encode
  else if op = 0x2#4 then .decode
  else if op = 0x3#4 then .clear
  else if op &&& 0xC#4 = 0x4#4 then .reserved47 op
  else .reserved8F op

/-- The command that a word written to `CMD` is (R48, R51). -/
def decodeWord (w : Word) : Instr := decodeOp (opField w)

/-- Why bytes are not a command word. -/
inductive DecodeReject where
  /-- They are not exactly the four bytes of one 32-bit word (R48, R52). -/
  | notOneWord
deriving DecidableEq, Repr

/-- The four bytes of a word as a 4-byte write carries them, lowest offset first: little-endian
(20_memory.md R32). -/
def wordBytes (w : Word) : List Byte :=
  [w.extractLsb' 0 8, w.extractLsb' 8 8, w.extractLsb' 16 8, w.extractLsb' 24 8]

/-- The decoder on bytes, lowest offset first. -/
def decode : List Byte → Except DecodeReject Instr
  | [b0, b1, b2, b3] => .ok (decodeWord (b3 ++ b2 ++ b1 ++ b0))
  | _ => .error .notOneWord

/-- The code of a command (R50). -/
def opcode : Instr → BitVec 4
  | .nop => 0x0#4
  | .encode => 0x1#4
  | .decode => 0x2#4
  | .clear => 0x3#4
  | .reserved47 op => op
  | .reserved8F op => op

/-- A command word from its two fields (R48): `IGN` in bits 31:4, `OP` in bits 3:0. -/
def commandWord (ign : BitVec 28) (op : BitVec 4) : Word := ign ++ op

/-- The encoder: the word of a command with `IGN` = 0, the column "word" of R50. -/
def encode (i : Instr) : Word := commandWord 0 (opcode i)

/-- A row of the opcode map: the words `w` with `w &&& mask = pat` are its words (R50). -/
structure OpRow where
  mnemonic : String
  pat : Word
  mask : Word
deriving DecidableEq, Repr

/-- The match and mask column of R50, in the order of spec/opcode_table.json. -/
def opRows : List OpRow :=
  [⟨"NOP", 0x0, 0xF⟩, ⟨"ENCODE", 0x1, 0xF⟩, ⟨"DECODE", 0x2, 0xF⟩, ⟨"CLEAR", 0x3, 0xF⟩,
   ⟨"RESERVED_4_7", 0x4, 0xC⟩, ⟨"RESERVED_8_F", 0x8, 0x8⟩]

/-- The mnemonic of a command's row. -/
def mnemonic : Instr → String
  | .nop => "NOP"
  | .encode => "ENCODE"
  | .decode => "DECODE"
  | .clear => "CLEAR"
  | .reserved47 _ => "RESERVED_4_7"
  | .reserved8F _ => "RESERVED_8_F"

/-- The 32-bit word whose low `nbits` bits are those of `w`, the bits above zero. -/
def tableWord (nbits w : Nat) : Word := BitVec.ofNat 32 (w % 2 ^ nbits)

/-- What the decoder reads from a table word laid out as the bus carries it. -/
def decodeTableWord (nbits w : Nat) : Option Instr :=
  match decode (wordBytes (tableWord nbits w)) with
  | .ok i => some i
  | .error _ => none

end Sys2Proof
end

