-- ==== Sys2Proof/Config.lean ====
section
/-! DEFINITION. What an implementation of B64CODEC fixes when it is built (00_scope.md R6, R8), and
the free values: the bytes the spec leaves at any value (93_implementation_defined.md U1, U3, U4).
The free values are constants without a body, so nothing can be proved of what they are. -/

namespace Sys2Proof

/-- How the decoder treats `=` (R8): `truncate` is rule R73, `strict` is rule R74. -/
inductive PadPolicy where
  | truncate
  | strict
deriving DecidableEq, Repr

/-- The build parameters of R6 that have more than one legal value. -/
structure Build where
  /-- `IN_CAP`, the capacity of the input buffer in bytes. -/
  inCap : Nat
  /-- `PAD_POLICY`. -/
  padPolicy : PadPolicy
deriving DecidableEq, Repr

/-- This hardware's default build (R6): `IN_CAP` = 4096, `PAD_POLICY` = `TRUNCATE`. -/
def Build.default : Build := ⟨4096, .truncate⟩

/-- The legal values of `IN_CAP` (R6): 1 to 49152. -/
abbrev Build.Legal (b : Build) : Prop := 1 ≤ b.inCap ∧ b.inCap ≤ 49152

/-- FREE VALUE (log 5): what byte `i` of `IN_BUF` holds after reset number `era`, until it is
written (U1). -/
opaque Config.freeInByte (era i : Nat) : Byte

/-- FREE VALUE (log 6, log 7): what a host read finds in byte `i` of `OUT_BUF` where the spec leaves
any value (U1, U3, U4); `draw` separates the occasions on which it may differ. -/
opaque Config.freeOutByte (draw i : Nat) : Byte

end Sys2Proof
end

