-- ==== Sys2Proof/Machine/State.lean ====
section
/-! DEFINITION. The state of B64CODEC as plain data (10_state.md R13 to R29), with the agents' moves
still to come and the responses already given (20_memory.md R39, R43; 30_encoding.md R53), and the
state after reset (R28). -/

namespace Sys2Proof.Machine

/-- Why the machine stops with a fault. There is no constructor: the block "never stops, halts or
locks up on an error" (60_exceptions.md R89). A failed command is a code in `STATUS.ERR` and a bad
access is the response `Reply.busError`; both are next states. Nothing raises this; safe. -/
inductive Fault where
deriving DecidableEq, Repr

/-- Why an instruction has no meaning. -/
inductive Refusal where
  /-- Raised by an arm of `exec` whose instruction is not modelled yet. No arm raises it: every row
  of the opcode table has its meaning. Safe. -/
  | notModelled (mnemonic : String)
deriving DecidableEq, Repr

/-- The result codes of R19. Codes 7 to 15 are never written, so they have no constructor. -/
inductive ErrCode where
  | ok
  | invalidLength
  | notAscii
  | invalidAlphabet
  | unexpectedPadding
  | badCommand
  | capacity
deriving DecidableEq, Repr

/-- The fields of `STATUS` (R17, R18, R19). The host only reads the register, so its reserved bits
are never stored. -/
structure Status where
  busy : Bool
  done : Bool
  err : ErrCode
deriving DecidableEq, Repr

/-- `ENG.OP`: the command being run (R27). -/
inductive EngOp where
  | encode
  | decode
deriving DecidableEq, Repr

/-- `ENG.PHASE` (R27). -/
inductive Phase where
  | check
  | groups
deriving DecidableEq, Repr

/-- The hidden engine state (R27). -/
structure Engine where
  /-- `ENG.OP` -/
  op : EngOp
  /-- `ENG.N`: `IN_LEN` captured at issue. -/
  n : Word
  /-- `ENG.G`: index of the next group. -/
  g : Word
  /-- `ENG.W`: output bytes written so far. -/
  w : Word
  /-- `ENG.PHASE` -/
  phase : Phase
deriving DecidableEq, Repr

/-- The width of a host access (R32): 1, 2 or 4 bytes. -/
inductive Width where
  | w8
  | w16
  | w32
deriving DecidableEq, Repr

/-- One move of an agent: a host access or poll (R53), one engine step, or a reset (R102).
Which agent moves next is the order of these in `State.todo` (log 2). -/
inductive Event where
  /-- `MemRead(off, n)`: `RD8`, `RD16`, `RD32`. -/
  | read (width : Width) (off : Offset)
  /-- `MemWrite(off, n, v)`: `WR8`, `WR16`, `WR32`; the low `n` bytes of `v` are the value. -/
  | write (width : Width) (off : Offset) (v : Word)
  /-- `POLL off, mask, v`. `pace` says how many steps the engine takes after each read that does not
  meet the condition (log 10); no other move comes between the reads of one poll (log 21). -/
  | poll (off : Offset) (mask v : Word) (pace : List Nat)
  /-- The engine takes one step. -/
  | engine
  /-- The reset input is asserted and released. -/
  | reset
deriving DecidableEq, Repr

/-- The response the bus gives to an access. -/
inductive Reply where
  /-- A read's data, zero-extended to a word. -/
  | data (width : Width) (v : Word)
  /-- A write completed without error, an ignored one included. -/
  | written
  /-- The error response (R39). -/
  | busError
deriving DecidableEq, Repr

/-- Bytes by index: strictly rising indexes, every listed byte one that was written. An unlisted
index holds no written value. -/
abbrev Memory := List Host.Cell

/-- The machine. `CMD` keeps no value (R16); `CAPS`, `FWD`, `INV` and `OUT_CAP` never change and are
computed (R22, R26, R29). -/
structure State where
  /-- The build parameters (R6, R29): no state of the block; no step changes them (log 1). -/
  build : Build
  /-- `STATUS` -/
  status : Status
  /-- `IN_LEN` -/
  inLen : Word
  /-- `OUT_LEN` -/
  outLen : Word
  /-- `IN_BUF`: the bytes the host has written since reset (R24). -/
  inBuf : Memory
  /-- `OUT_BUF`: the bytes the engine has written since reset (R25). -/
  outBuf : Memory
  /-- `ENG.*` -/
  eng : Engine
  /-- MODEL's own (log 2): the moves still to come, oldest first. -/
  todo : List Event
  /-- MODEL's own (log 12): the responses given to the host, newest first. -/
  replies : List Reply
  /-- MODEL's own (log 5): which reset unwritten `IN_BUF` bytes date from. -/
  era : Nat
  /-- MODEL's own (log 6, log 7): the draw of unspecified `OUT_BUF` bytes. -/
  fresh : Nat
deriving DecidableEq, Repr

/-- `STATUS` after reset (R28): reads 0. -/
def Status.idle : Status := ⟨false, false, .ok⟩

/-- The hidden engine state after reset: unspecified and irrelevant (R28); DESIGN CHOICE, log 8. -/
def Engine.initial : Engine := ⟨.encode, 0, 0, 0, .check⟩

/-- The machine right after reset (R28, R102), in this hardware's default build (R6), with no access
sent yet. -/
def State.reset : State where
  build := Build.default
  status := Status.idle
  inLen := 0
  outLen := 0
  inBuf := []
  outBuf := []
  eng := Engine.initial
  todo := []
  replies := []
  era := 0
  fresh := 0

end Sys2Proof.Machine
end

