-- ==== Sys2Proof/Machine/Ops.lean ====
section
/-! DEFINITION. The operations every meaning shares: bytes in a buffer, the completion event
(43_control.md R81), the start of a command and the issue rule (R80, R105). The block has no traps
(60_exceptions.md R93): its one report of a failure is `State.complete` with a code. -/

namespace Sys2Proof.Machine

/-- What an unlisted index holds: no written value (log 5, log 6). -/
def Memory.unlisted (_ : Nat) : Option Byte := none

/-- The byte written at an index, if one was. -/
def Memory.read? : Memory → Nat → Option Byte
  | [], a => Memory.unlisted a
  | (k, v) :: m, a => if k = a then some v else Memory.read? m a

/-- Write one byte, keeping the indexes strictly rising. -/
def Memory.write : Memory → Nat → Byte → Memory
  | [], a, b => [(a, b)]
  | (k, v) :: m, a, b =>
    if a < k then (a, b) :: (k, v) :: m
    else if a = k then (a, b) :: m
    else (k, v) :: Memory.write m a b

/-- Write bytes at consecutive indexes, in ascending order (R32, R10). -/
def Memory.writeSeq : Memory → Nat → List Byte → Memory
  | m, _, [] => m
  | m, a, b :: bs => Memory.writeSeq (m.write a b) (a + 1) bs

/-- The canonical form: indexes strictly rising. (No listed byte can equal what an unlisted index
holds, which is no byte.) -/
def Memory.wf : Memory → Bool
  | [] => true
  | [_] => true
  | c :: d :: m => decide (c.1 < d.1) && Memory.wf (d :: m)

/-- Every listed index is below `cap`. -/
def Memory.below (m : Memory) (cap : Nat) : Bool := m.all fun c => decide (c.1 < cap)

/-- `n`, the bytes of an access (R32). -/
def Width.bytes : Width → Nat
  | .w8 => 1
  | .w16 => 2
  | .w32 => 4

/-- A new draw of the bytes of `OUT_BUF` that hold any value (log 6, log 7). -/
def State.draw (s : State) : State := { s with fresh := s.fresh + 1 }

/-- The host receives a response. -/
def State.reply (s : State) (r : Reply) : State := { s with replies := r :: s.replies }

/-- `complete(err, len)`: the completion event, one atomic change (R81). -/
def State.complete (s : State) (err : ErrCode) (len : Word) : State :=
  { s with status := ⟨false, true, err⟩, outLen := len }

/-- `STATUS.DONE <- 0; STATUS.ERR <- 0; OUT_LEN <- 0`: how every command but `NOP` begins (R80, R85,
R86). -/
def State.begin (s : State) : State :=
  { s with status := { s.status with done := false, err := .ok }, outLen := 0 }

/-- A write to `CMD`: it issues the command when `STATUS.BUSY = 0` (R80) and is ignored when
`STATUS.BUSY = 1` (R105). -/
def State.issue (s : State) (effect : State → State) : Host.Outcome State Fault Refusal :=
  .next (if s.status.busy then s else effect s)

/-- The issue of `ENCODE` and `DECODE` (R80): `CAPACITY` at once when `IN_LEN > IN_CAP`, otherwise
the engine starts on the captured length. -/
def State.startEngine (op : EngOp) (s : State) : State :=
  if s.build.inCap < s.inLen.toNat then s.begin.complete .capacity 0
  else { s.begin with
    status := { s.begin.status with busy := true }
    eng := ⟨op, s.inLen, 0, 0, .check⟩ }

/-- The issue of a reserved code (R86): it completes at once with `BAD_COMMAND`. -/
def State.rejectCommand (s : State) : State := s.begin.complete .badCommand 0

/-- The block's part of a reset (R102, R28): registers to their reset values, a running command
abandoned, both buffers at any value. The host's moves and the responses it has are no state of the
block. -/
def State.resetBlock (s : State) : State :=
  { s with
    status := Status.idle
    inLen := 0
    outLen := 0
    inBuf := []
    outBuf := []
    eng := Engine.initial
    era := s.era + 1
    fresh := s.fresh + 1 }

end Sys2Proof.Machine
end

