-- ==== Sys2Proof/Machine/Control.lean ====
section
/-! DEFINITION. The control commands (43_control.md R84 to R86): `NOP`, `CLEAR` and the reserved
codes, all of which are whole inside the access that issues them. -/

namespace Sys2Proof.Machine

/-- `NOP` (R84): nothing changes. -/
def execNop (s : State) : Host.Outcome State Fault Refusal := s.issue id

/-- `CLEAR` (R85): `DONE`, `ERR` and `OUT_LEN` to 0; no byte of `OUT_BUF` is written. -/
def execClear (s : State) : Host.Outcome State Fault Refusal := s.issue State.begin

/-- A reserved code 0x4 to 0x7 (R86): `BAD_COMMAND`, whichever code it is. -/
def execReserved47 (_op : BitVec 4) (s : State) : Host.Outcome State Fault Refusal :=
  s.issue State.rejectCommand

/-- A reserved code 0x8 to 0xF (R86): `BAD_COMMAND`, whichever code it is. -/
def execReserved8F (_op : BitVec 4) (s : State) : Host.Outcome State Fault Refusal :=
  s.issue State.rejectCommand

end Sys2Proof.Machine
end

