-- ==== Sys2Proof/Machine/Lut.lean ====
section
/-! DEFINITION. The forward and inverse alphabet tables (40_lut.md R54 to R57) and the padding
character. The ASCII codes are the spec's own, from general knowledge (log 14). -/

namespace Sys2Proof.Machine

/-- `SENTINEL` (00_scope.md R7). -/
def sentinel : Byte := 0xFF

/-- The padding character `=` as a byte (R54). -/
def padChar : Byte := 0x3D

/-- The padding character `=` as a 7-bit code (R54). -/
def padCode : Code := 0x3D

/-- The ASCII codes of values 0 to 25, `A` to `Z` (R54). -/
def fwdUpper : List Byte :=
  [0x41, 0x42, 0x43, 0x44, 0x45, 0x46, 0x47, 0x48, 0x49, 0x4A, 0x4B, 0x4C, 0x4D,
   0x4E, 0x4F, 0x50, 0x51, 0x52, 0x53, 0x54, 0x55, 0x56, 0x57, 0x58, 0x59, 0x5A]

/-- The ASCII codes of values 26 to 51, `a` to `z` (R54). -/
def fwdLower : List Byte :=
  [0x61, 0x62, 0x63, 0x64, 0x65, 0x66, 0x67, 0x68, 0x69, 0x6A, 0x6B, 0x6C, 0x6D,
   0x6E, 0x6F, 0x70, 0x71, 0x72, 0x73, 0x74, 0x75, 0x76, 0x77, 0x78, 0x79, 0x7A]

/-- The ASCII codes of values 52 to 63, `0` to `9`, `+`, `/` (R54). -/
def fwdDigits : List Byte :=
  [0x30, 0x31, 0x32, 0x33, 0x34, 0x35, 0x36, 0x37, 0x38, 0x39, 0x2B, 0x2F]

/-- The 64 entries of `FWD` (R54, R55). -/
def fwdTable : List Byte := fwdUpper ++ fwdLower ++ fwdDigits

/-- `FWD_LOOKUP` (R55). The table has an entry for every 6-bit value, so the default is never used. -/
def fwd (s : Sextet) : Byte := fwdTable.getD s.toNat 0

/-- A row of the inverse table with no member of the alphabet. -/
def invBlank : List Byte := List.replicate 16 sentinel

/-- Rows `0x20` and `0x30` of the inverse table (R56): `+`, `/` and the digits. -/
def invDigits : List Byte :=
  [0xFF, 0xFF, 0xFF, 0xFF, 0xFF, 0xFF, 0xFF, 0xFF, 0xFF, 0xFF, 0xFF, 0x3E, 0xFF, 0xFF, 0xFF, 0x3F,
   0x34, 0x35, 0x36, 0x37, 0x38, 0x39, 0x3A, 0x3B, 0x3C, 0x3D, 0xFF, 0xFF, 0xFF, 0xFF, 0xFF, 0xFF]

/-- Rows `0x40` and `0x50` of the inverse table (R56): `A` to `Z`. -/
def invUpper : List Byte :=
  [0xFF, 0x00, 0x01, 0x02, 0x03, 0x04, 0x05, 0x06, 0x07, 0x08, 0x09, 0x0A, 0x0B, 0x0C, 0x0D, 0x0E,
   0x0F, 0x10, 0x11, 0x12, 0x13, 0x14, 0x15, 0x16, 0x17, 0x18, 0x19, 0xFF, 0xFF, 0xFF, 0xFF, 0xFF]

/-- Rows `0x60` and `0x70` of the inverse table (R56): `a` to `z`. -/
def invLower : List Byte :=
  [0xFF, 0x1A, 0x1B, 0x1C, 0x1D, 0x1E, 0x1F, 0x20, 0x21, 0x22, 0x23, 0x24, 0x25, 0x26, 0x27, 0x28,
   0x29, 0x2A, 0x2B, 0x2C, 0x2D, 0x2E, 0x2F, 0x30, 0x31, 0x32, 0x33, 0xFF, 0xFF, 0xFF, 0xFF, 0xFF]

/-- The 128 entries of `INV` (R56). -/
def invTable : List Byte := invBlank ++ invBlank ++ invDigits ++ invUpper ++ invLower

/-- `INV_LOOKUP` (R56). The table has an entry for every 7-bit code, so the default is never used. -/
def inv (c : Code) : Byte := invTable.getD c.toNat sentinel

/-- Membership in the alphabet: `INV[c] < 64`, never a comparison with the sentinel (R57). -/
def isMember (c : Code) : Bool := decide ((inv c).toNat < 64)

end Sys2Proof.Machine
end

