-- ==== Sys2Proof/Machine/Operands.lean ====
section
/-! DEFINITION. The implicit operands of the commands and the places of the host address map: the
bytes of the two buffers (10_state.md R24, R25), the regions and offsets of 20_memory.md R31, and
which accesses the bus accepts (R33, R38). -/

namespace Sys2Proof.Machine

/-- `OUT_CAP = 4 * ceil(IN_CAP / 3)` (00_scope.md R6). -/
def outCap (b : Build) : Nat := 4 * ((b.inCap + 2) / 3)

/-- `IN_BUF[i]`: the byte written there, or the value that reset left, which is any (R24, U1, log 5). -/
def State.inByte (s : State) (i : Nat) : Byte :=
  (s.inBuf.read? i).getD (Config.freeInByte s.era i)

/-- `IN_BUF[0 .. n-1]`, in ascending order (R34). -/
def State.inBytes (s : State) (n : Nat) : List Byte := (List.range n).map s.inByte

/-- The byte stored at `OUT_BUF[i]`; any value where the engine has written none (R25, U1, log 6). -/
def State.outByte (s : State) (i : Nat) : Byte :=
  (s.outBuf.read? i).getD (Config.freeOutByte s.fresh i)

/-- `OUT_BUF[0 .. n-1]`, in ascending order (R34). -/
def State.outBytes (s : State) (n : Nat) : List Byte := (List.range n).map s.outByte

/-- What a host read finds in `OUT_BUF[i]` (R36): the stored byte when it is part of the result of an
idle block, and any value otherwise (U3, U4; log 6, log 7). -/
def State.hostOutByte (s : State) (i : Nat) : Byte :=
  if !s.status.busy && decide (i < s.outLen.toNat) then s.outByte i
  else Config.freeOutByte s.fresh i

/-- Write the engine's next output bytes at `OUT_BUF[i]` and count them in `ENG.W` (R27, R42). -/
def State.emit (s : State) (i : Nat) (bs : List Byte) : State :=
  { s with
    outBuf := s.outBuf.writeSeq i bs
    eng := { s.eng with w := s.eng.w + BitVec.ofNat 32 bs.length } }

/-- The regions of the host address map (R31), before a buffer's capacity is looked at. -/
inductive Region where
  | regs
  | fwd
  | inv
  | inBuf
  | outBuf
  | reserved
deriving DecidableEq, Repr

/-- The first offset of each region that is not reserved (R31). -/
def fwdBase : Nat := 0x100
def invBase : Nat := 0x180
def inBase : Nat := 0x10000
def outBase : Nat := 0x20000

/-- The region an offset lies in (R31). -/
def region (off : Nat) : Region :=
  if off < 0x14 then .regs
  else if off < 0x100 then .reserved
  else if off < 0x140 then .fwd
  else if off < 0x180 then .reserved
  else if off < 0x200 then .inv
  else if off < 0x10000 then .reserved
  else if off < 0x20000 then .inBuf
  else if off < 0x30000 then .outBuf
  else .reserved

/-- Natural alignment (R33): `off mod n = 0`. -/
def aligned (w : Width) (off : Offset) : Bool := off.toNat % w.bytes == 0

/-- The region accepts the access: only 4-byte accesses to registers (R33), no byte at or beyond a
buffer's capacity (R33, R38), nothing reserved (R38). -/
def regionAccepts (b : Build) (w : Width) (off : Offset) : Bool :=
  match region off.toNat with
  | .regs => w == .w32
  | .fwd => true
  | .inv => true
  | .inBuf => decide (off.toNat + w.bytes ≤ inBase + b.inCap)
  | .outBuf => decide (off.toNat + w.bytes ≤ outBase + outCap b)
  | .reserved => false

/-- The access raises no `BusError` (R33, R38). -/
def accepts (b : Build) (w : Width) (off : Offset) : Bool := aligned w off && regionAccepts b w off

end Sys2Proof.Machine
end

