-- ==== Sys2Proof/Machine/Codec.lean ====
section
/-! DEFINITION. The two datapaths as functions of bytes: the 6-bit slicer and the group encoder
(41_encode.md R59 to R61), the group validator, the reassembler and the padding rules (42_decode.md
R69 to R74), and the source's two functions on whole sequences (R64, R75), which the engine computes
group by group. -/

namespace Sys2Proof.Machine

/-- `SLICE`: three bytes to four 6-bit values (R59). -/
def slice (b0 b1 b2 : Byte) : Sextet × Sextet × Sextet × Sextet :=
  (b0.extractLsb' 2 6,
   b0.extractLsb' 0 2 ++ b1.extractLsb' 4 4,
   b1.extractLsb' 0 4 ++ b2.extractLsb' 6 2,
   b2.extractLsb' 0 6)

/-- `ENC_GROUP`: a group of `k` = 1, 2 or 3 bytes to four characters (R60). -/
def encGroup (b0 b1 b2 : Byte) (k : Nat) : List Byte :=
  let (s0, s1, s2, s3) := slice b0 b1 b2
  [fwd s0, fwd s1, if 2 ≤ k then fwd s2 else padChar, if k = 3 then fwd s3 else padChar]

/-- The source's `encode` on a whole sequence: full groups, then a short group with zeros for the
missing bytes (R61, R64). -/
def encodeText : List Byte → List Byte
  | b0 :: b1 :: b2 :: rest => encGroup b0 b1 b2 3 ++ encodeText rest
  | [b0, b1] => encGroup b0 b1 0 2
  | [b0] => encGroup b0 0 0 1
  | [] => []

/-- `4 * ceil(n / 3)`, the output length of an encode of `n` bytes (R62). -/
def encodedLength (n : Nat) : Nat := 4 * ((n + 2) / 3)

/-- A byte outside the 7-bit ASCII range (R12, R68). -/
def notAsciiByte (b : Byte) : Bool := decide (0x80 ≤ b.toNat)

/-- The 7-bit code of a byte that has passed the ASCII check (R68). The inverse table has no input
for other bytes (U5, log 15). -/
def code (b : Byte) : Code := b.setWidth 7

/-- `VALIDATE_GROUP` passes: positions 0 and 1 hold members of the alphabet, positions 2 and 3
members or `=` (R69). -/
def validateGroup (c0 c1 c2 c3 : Code) : Bool :=
  isMember c0 && isMember c1 && (c2 == padCode || isMember c2) && (c3 == padCode || isMember c3)

/-- `REASSEMBLE`: four 6-bit values to three bytes (R70). -/
def reassemble (v0 v1 v2 v3 : Sextet) : Byte × Byte × Byte :=
  (v0 ++ v1.extractLsb' 4 2, v1.extractLsb' 0 4 ++ v2.extractLsb' 2 4, v2.extractLsb' 0 2 ++ v3)

/-- `INV[c][5:0]` of a character (R75). -/
def sextetOf (b : Byte) : Sextet := (inv (code b)).extractLsb' 0 6

/-- The padding check that `STRICT` adds, where `last` says that the group is the final one (R74). -/
def paddingMisplaced (last : Bool) (c2 c3 : Byte) : Bool :=
  (c2 == padChar && c3 != padChar) || ((c2 == padChar || c3 == padChar) && !last)

/-- What one pass of the decoder's group loop does (R75). -/
inductive GroupResult where
  /-- The decode fails with this code. -/
  | bad (e : ErrCode)
  /-- These bytes are emitted and the loop is left: the padding stop (R72). -/
  | stop (ys : List Byte)
  /-- These bytes are emitted and the loop goes on. -/
  | more (ys : List Byte)
deriving DecidableEq, Repr

/-- One group of the decoder's loop (R75): alphabet check (R69), under `STRICT` the padding check
(R74), then reassembly (R70) up to the padding stop (R72). -/
def decGroup (policy : PadPolicy) (last : Bool) (c0 c1 c2 c3 : Byte) : GroupResult :=
  if !validateGroup (code c0) (code c1) (code c2) (code c3) then .bad .invalidAlphabet
  else if policy == .strict && paddingMisplaced last c2 c3 then .bad .unexpectedPadding
  else
    let (y0, y1, y2) := reassemble (sextetOf c0) (sextetOf c1) (sextetOf c2) (sextetOf c3)
    if c2 == padChar then .stop [y0]
    else if c3 == padChar then .stop [y0, y1]
    else .more [y0, y1, y2]

/-- The group loop of R75 on a sequence of whole groups. A sequence that is not whole groups never
gets here: it has failed the length check (R67). -/
def decodeGroups (policy : PadPolicy) : List Byte → Except ErrCode (List Byte)
  | [] => .ok []
  | c0 :: c1 :: c2 :: c3 :: rest =>
    match decGroup policy rest.isEmpty c0 c1 c2 c3 with
    | .bad e => .error e
    | .stop ys => .ok ys
    | .more ys =>
      match decodeGroups policy rest with
      | .ok zs => .ok (ys ++ zs)
      | .error e => .error e
  | _ => .error .invalidLength

/-- The source's `decode` on a whole text: the length check (R67), the ASCII check over the whole
text (R68), then the group loop (R75), in the order of R76. -/
def decodeText (policy : PadPolicy) (text : List Byte) : Except ErrCode (List Byte) :=
  if text.length % 4 ≠ 0 then .error .invalidLength
  else if text.any notAsciiByte then .error .notAscii
  else decodeGroups policy text

end Sys2Proof.Machine
end

