-- ==== Sys2Proof/Machine/Engine.lean ====
section
/-! DEFINITION. The engine's steps (41_encode.md R64, R65; 42_decode.md R75, R79): one step for the
phase `CHECK`, then one step for each group, the last of which is the completion event
(43_control.md R81). How the work is cut into steps is the model's choice; no host access can tell
(R83, log 9). -/

namespace Sys2Proof.Machine

/-- One group of the loop of R64, or what follows the last full group: the short group, if there is
one, and the completion. -/
def State.encodeGroup (s : State) : State :=
  let n := s.eng.n.toNat
  let g := s.eng.g.toNat
  if 3 * g + 3 ≤ n then
    let t := s.emit (4 * g) (encGroup (s.inByte (3 * g)) (s.inByte (3 * g + 1)) (s.inByte (3 * g + 2)) 3)
    { t with eng := { t.eng with g := t.eng.g + 1 } }
  else if n = 3 * g + 1 then
    (s.emit (4 * g) (encGroup (s.inByte (3 * g)) 0 0 1)).complete .ok (BitVec.ofNat 32 (encodedLength n))
  else if n = 3 * g + 2 then
    (s.emit (4 * g) (encGroup (s.inByte (3 * g)) (s.inByte (3 * g + 1)) 0 2)).complete .ok
      (BitVec.ofNat 32 (encodedLength n))
  else s.complete .ok (BitVec.ofNat 32 (encodedLength n))

/-- The checks of R75 over the whole input, in their order (R67, R68). -/
def State.decodeCheck (s : State) : State :=
  if s.eng.n.toNat % 4 ≠ 0 then s.complete .invalidLength 0
  else if (s.inBytes s.eng.n.toNat).any notAsciiByte then s.complete .notAscii 0
  else { s with eng := { s.eng with phase := .groups } }

/-- One group of the loop of R75, or its end. -/
def State.decodeGroup (s : State) : State :=
  let n := s.eng.n.toNat
  let g := s.eng.g.toNat
  if n / 4 ≤ g then s.complete .ok s.eng.w
  else
    match decGroup s.build.padPolicy (g + 1 == n / 4) (s.inByte (4 * g)) (s.inByte (4 * g + 1))
        (s.inByte (4 * g + 2)) (s.inByte (4 * g + 3)) with
    | .bad e => s.complete e 0
    | .stop ys =>
      let t := s.emit s.eng.w.toNat ys
      t.complete .ok t.eng.w
    | .more ys =>
      let t := s.emit s.eng.w.toNat ys
      { t with eng := { t.eng with g := t.eng.g + 1 } }

/-- What a running engine does in one step. `ENCODE` has nothing to check, so its phase `CHECK` only
leads to the group loop. -/
def State.runningStep (s : State) : State :=
  match s.eng.op, s.eng.phase with
  | .encode, .check => { s with eng := { s.eng with phase := .groups } }
  | .encode, .groups => s.encodeGroup
  | .decode, .check => s.decodeCheck
  | .decode, .groups => s.decodeGroup

/-- One step of the engine: none while the block is idle, which then keeps all its state
(60_exceptions.md R101). -/
def State.engineStep (s : State) : State :=
  if s.status.busy then s.runningStep.draw else s

end Sys2Proof.Machine
end

