-- ==== Sys2Proof/Machine/Decoder.lean ====
section
/-! DEFINITION. The command `DECODE` (42_decode.md R75). Its meaning is its issue (43_control.md
R80), which starts the engine; the engine's steps, `State.decodeCheck` and `State.decodeGroup`, do
the rest of R75. -/

namespace Sys2Proof.Machine

/-- `DECODE` (R75, R80). -/
def execDecode (s : State) : Host.Outcome State Fault Refusal := s.issue (State.startEngine .decode)

end Sys2Proof.Machine
end

