-- ==== Sys2Proof/Machine/Encoder.lean ====
section
/-! DEFINITION. The command `ENCODE` (41_encode.md R64). Its meaning is its issue (43_control.md
R80), which starts the engine; the engine's steps, `State.encodeGroup`, do the rest of R64. -/

namespace Sys2Proof.Machine

/-- `ENCODE` (R64, R80). -/
def execEncode (s : State) : Host.Outcome State Fault Refusal := s.issue (State.startEngine .encode)

end Sys2Proof.Machine
end

