-- ==== Sys2Proof/Machine/Flags.lean ====
section
/-! DEFINITION. The words of the read-only status registers: the result codes and the layout of
`STATUS` (10_state.md R17 to R19) and `CAPS` (R22). `STATUS` holds the only flags there are (R23);
its fields are written by `State.begin`, `State.startEngine`, `State.complete` and reset alone. -/

namespace Sys2Proof.Machine

/-- The 4-bit code of a result (R19). -/
def ErrCode.bits : ErrCode → BitVec 4
  | .ok => 0
  | .invalidLength => 1
  | .notAscii => 2
  | .invalidAlphabet => 3
  | .unexpectedPadding => 4
  | .badCommand => 5
  | .capacity => 6

/-- `STATUS` as the host reads it: `BUSY` bit 0, `DONE` bit 1, `ERR` bits 7:4, every other bit 0
(R17, R18, R19). -/
def Status.word (t : Status) : Word :=
  0#24 ++ t.err.bits ++ 0#2 ++ BitVec.ofBool t.done ++ BitVec.ofBool t.busy

/-- `CAPS.PAD_STRICT` (R22). -/
def padBit : PadPolicy → BitVec 1
  | .truncate => 0
  | .strict => 1

/-- `CAPS` as the host reads it: `IN_CAP` in bits 15:0, `PAD_STRICT` bit 16, the rest 0 (R22). -/
def capsWord (b : Build) : Word := 0#15 ++ padBit b.padPolicy ++ BitVec.ofNat 16 b.inCap

end Sys2Proof.Machine
end

