-- ==== Sys2Proof/Machine/Port.lean ====
section
/-! DEFINITION. The host port (20_memory.md R30 to R43): what a read finds at each byte offset, what
a write does, which accesses raise `BusError`, the poll of 30_encoding.md R53, and what each agent's
move does to the machine. -/

namespace Sys2Proof.Machine

/-- The register at a byte offset of the register region (10_state.md R15). `CMD` reads 0 (R16). -/
def State.register (s : State) (off : Nat) : Word :=
  if off < 0x04 then 0
  else if off < 0x08 then s.status.word
  else if off < 0x0C then s.inLen
  else if off < 0x10 then s.outLen
  else capsWord s.build

/-- Byte `k` of a word, `v[8k+7:8k]` (R32). -/
def wordByte (v : Word) (k : Nat) : Byte := v.extractLsb' (8 * k) 8

/-- `B[x]`: the byte a host read finds at an offset (R31, R32, R35, R36, R37). No accepted access
reaches a reserved offset, so the last line is never used. -/
def State.hostByte (s : State) (x : Nat) : Byte :=
  match region x with
  | .regs => wordByte (s.register x) (x % 4)
  | .fwd => fwd (BitVec.ofNat 6 (x - fwdBase))
  | .inv => inv (BitVec.ofNat 7 (x - invBase))
  | .inBuf => s.inByte (x - inBase)
  | .outBuf => s.hostOutByte (x - outBase)
  | .reserved => 0

/-- `MemRead(off, n)`: the bytes from the highest offset down to the lowest, zero-extended (R32). -/
def State.memRead (s : State) (w : Width) (off : Offset) : Word :=
  let x := off.toNat
  match w with
  | .w8 => (s.hostByte x).setWidth 32
  | .w16 => (s.hostByte (x + 1) ++ s.hostByte x).setWidth 32
  | .w32 => s.hostByte (x + 3) ++ s.hostByte (x + 2) ++ s.hostByte (x + 1) ++ s.hostByte x

/-- The response to a read (R32, R39). -/
def State.readReply (s : State) (w : Width) (off : Offset) : Reply :=
  if accepts s.build w off then .data w (s.memRead w off) else .busError

/-- After a read, bytes of `OUT_BUF` read while busy are drawn anew (U4, log 7); nothing else of the
machine changes (R40). -/
def State.afterRead (s : State) : State := if s.status.busy then s.draw else s

/-- A host read. -/
def State.busRead (s : State) (w : Width) (off : Offset) : State :=
  (s.reply (s.readReply w off)).afterRead

/-- The bytes a write carries, lowest offset first (R32). -/
def writtenBytes (w : Width) (v : Word) : List Byte := (List.range w.bytes).map (wordByte v)

/-- The effect of a write to `IN_LEN` (R20, R105). -/
def State.writeInLen (s : State) (v : Word) : State :=
  if s.status.busy then s else { s with inLen := v }

/-- The effect of a write to `IN_BUF` from index `i` (R35, R105). -/
def State.writeInBuf (s : State) (i : Nat) (bs : List Byte) : State :=
  if s.status.busy then s else { s with inBuf := s.inBuf.writeSeq i bs }

/-- An accepted write to a register: `CMD` runs the command, `IN_LEN` takes the value, the read-only
registers ignore it (R15, R31, R39). -/
def State.writeRegister (s : State) (off : Nat) (v : Word) : Host.Outcome State Fault Refusal :=
  if off = 0x00 then exec (decodeWord v) s
  else if off = 0x08 then .next (s.writeInLen v)
  else .next s

/-- An accepted write (R31). -/
def State.acceptedWrite (s : State) (w : Width) (off : Offset) (v : Word) :
    Host.Outcome State Fault Refusal :=
  match region off.toNat with
  | .regs => s.writeRegister off.toNat v
  | .inBuf => .next (s.writeInBuf (off.toNat - inBase) (writtenBytes w v))
  | .fwd => .next s
  | .inv => .next s
  | .outBuf => .next s
  | .reserved => .next s

/-- The machine once a write has its response, before its effect: unspecified bytes of `OUT_BUF` may
differ from what was read before the write (R40, log 6). -/
def State.afterWrite (s : State) (r : Reply) : State := (s.reply r).draw

/-- A host write: `BusError` with no state change (R39), or the write. -/
def State.busWrite (s : State) (w : Width) (off : Offset) (v : Word) :
    Host.Outcome State Fault Refusal :=
  if accepts s.build w off then (s.afterWrite .written).acceptedWrite w off v
  else .next (s.afterWrite .busError)

/-- The poll's condition `(t & mask) = v` on a response; an error response has no data to meet it. -/
def pollMet (mask v : Word) : Reply → Bool
  | .data _ t => t &&& mask == v
  | .written => false
  | .busError => false

/-- How many steps the engine takes after a read that does not meet a poll's condition, and the pace
of the rest of the poll: one step each once the given pace is used up, for a waiting host cannot hold
the engine up (R82, R88, log 10). -/
def pollPace : List Nat → Nat × List Nat
  | [] => (1, [])
  | k :: pace => (k, pace)

/-- `POLL off, mask, v` (R53): one read; the poll is over if the condition is met, otherwise it stands
again after the engine's steps. DESIGN CHOICE (log 21): nothing but engine steps comes between two reads
of one poll, where R53 and R102 leave another host's access or a reset possible; a wait so interrupted
is a list of single reads, `Event.read`, with those moves between them. -/
def State.pollRead (s : State) (off : Offset) (mask v : Word) (pace : List Nat) : State :=
  let t := s.busRead .w32 off
  if pollMet mask v (s.readReply .w32 off) then t
  else
    let (k, pace) := pollPace pace
    { t with todo := List.replicate k .engine ++ .poll off mask v pace :: t.todo }

/-- One move of an agent. -/
def State.perform (s : State) : Event → Host.Outcome State Fault Refusal
  | .read w off => .next (s.busRead w off)
  | .write w off v => s.busWrite w off v
  | .poll off mask v pace => .next (s.pollRead off mask v pace)
  | .engine => .next s.engineStep
  | .reset => .next s.resetBlock

/-- The next move: the oldest of those to come; with none to come, the engine goes on (R82), and an
idle block keeps its state (R101, log 3). -/
def State.nextMove (s : State) : Host.Outcome State Fault Refusal :=
  match s.todo with
  | [] => .next s.engineStep
  | e :: rest => { s with todo := rest }.perform e

/-- The write to `CMD` that issues a command word (R48). -/
def commandWrite (v : Word) : Event := .write .w32 0 v

/-- The state whose next move issues the word `v`: the write stands first in line, and the block is
idle, or the write would be ignored (R105, log 4). -/
def State.withCommand (s : State) (v : Word) : State :=
  { s with
    status := { s.status with busy := false }
    todo := commandWrite v :: s.todo }

end Sys2Proof.Machine
end

