-- ==== Sys2Proof/Machine/Step.lean ====
section
/-! DEFINITION. One step of the machine is one move of one agent. The block fetches nothing
(20_memory.md R46): a command comes to run by a write to `CMD`, so the next command is placed as the
host's next access (log 4). -/

namespace Sys2Proof.Machine

/-- One step: the next move. -/
def step (s : State) : Host.Outcome State Fault Refusal := s.nextMove

/-- The state whose next step issues the command word with the low `nbits` bits of `w`. -/
def State.withFetchWord (s : State) (nbits w : Nat) : State := s.withCommand (tableWord nbits w)

end Sys2Proof.Machine
end

