-- ==== Sys2Proof/Machine/Script.lean ====
section
/-! DEFINITION. The host-program forms of 30_encoding.md R53 as moves of the host. A name that a read
binds (`-> name`) is the response that the read adds to `State.replies`. -/

namespace Sys2Proof.Machine.Script

/-- `WR32 off, v` -/
def wr32 (off : Offset) (v : Word) : List Event := [.write .w32 off v]

/-- `WR16 off, v` -/
def wr16 (off : Offset) (v : BitVec 16) : List Event := [.write .w16 off (v.setWidth 32)]

/-- `WR8 off, v` -/
def wr8 (off : Offset) (v : Byte) : List Event := [.write .w8 off (v.setWidth 32)]

/-- `RD32 off -> name` -/
def rd32 (off : Offset) : List Event := [.read .w32 off]

/-- `RD16 off -> name` -/
def rd16 (off : Offset) : List Event := [.read .w16 off]

/-- `RD8 off -> name` -/
def rd8 (off : Offset) : List Event := [.read .w8 off]

/-- `POLL off, mask, v`, with the engine taking one step after each read that fails; `Event.poll`
itself gives every other pace (log 10). -/
def poll (off : Offset) (mask v : Word) : List Event := [.poll off mask v []]

/-- `CMD NOP`, `CMD ENCODE`, `CMD DECODE`, `CMD CLEAR` -/
def cmd (i : Instr) : List Event := wr32 0x00 (encode i)

/-- `SETLEN n` -/
def setLen (n : Word) : List Event := wr32 0x08 n

/-- `LOAD` of a string or list: one byte write each, in ascending order from `IN_BUF[k]`. -/
def loadFrom : Nat → List Byte → List Event
  | _, [] => []
  | k, b :: bs => wr8 (BitVec.ofNat 18 (inBase + k)) b ++ loadFrom (k + 1) bs

/-- `LOAD` from `IN_BUF[0]`. -/
def load (bs : List Byte) : List Event := loadFrom 0 bs

/-- `WAITIDLE`: wait for `BUSY = 0`. -/
def waitIdle : List Event := poll 0x04 0x00000001 0x00000000

/-- `WAITDONE`: wait for `BUSY = 0` and `DONE = 1`. -/
def waitDone : List Event := poll 0x04 0x00000003 0x00000002

end Sys2Proof.Machine.Script
end

