-- ==== Sys2Proof/Safety.lean ====
section
/-! DEFINITION. The terms that statements about runs are made in: the invariant of the machine, what
part of a state is the block's, the observable result of a command (43_control.md R87), and the
accesses the bus refuses, in the numbers of 20_memory.md R31 and R33. A run is safe when every step
answers a next state. -/

namespace Sys2Proof.Machine

/-- Two states have the same block: registers, buffers, engine and build parameters. What they may
differ in is the MODEL's own: the moves to come, the responses given, and the draw of unspecified
bytes of `OUT_BUF` (`era` is the MODEL's own too, but it stands for bytes of `IN_BUF`). -/
structure State.SameBlock (s t : State) : Prop where
  build : t.build = s.build
  status : t.status = s.status
  inLen : t.inLen = s.inLen
  outLen : t.outLen = s.outLen
  inBuf : t.inBuf = s.inBuf
  outBuf : t.outBuf = s.outBuf
  eng : t.eng = s.eng
  era : t.era = s.era

/-- What holds while the engine runs a command (R27, R42, R62, R78). -/
structure State.Running (s : State) : Prop where
  /-- `ENG.N` is the length captured at issue, and `IN_LEN` is stable (R49, R83). -/
  captured : s.eng.n = s.inLen
  /-- The capacity check has been passed (R80). -/
  fits : s.eng.n.toNat ≤ s.build.inCap
  /-- The bytes counted in `ENG.W` have been written. -/
  written : ∀ i, i < s.eng.w.toNat → (s.outBuf.read? i).isSome = true
  /-- The group loop has not begun in the phase `CHECK`. -/
  checking : s.eng.phase = .check → s.eng.g = 0 ∧ s.eng.w = 0
  /-- Full groups give four characters each (R64). -/
  encoding : s.eng.op = .encode →
    s.eng.w.toNat = 4 * s.eng.g.toNat ∧ 3 * s.eng.g.toNat ≤ s.eng.n.toNat
  /-- Groups without padding give three bytes each (R75). -/
  decoding : s.eng.op = .decode →
    s.eng.w.toNat = 3 * s.eng.g.toNat ∧ 4 * s.eng.g.toNat ≤ s.eng.n.toNat
  /-- The group loop of a decode runs only on text that has passed the length and ASCII checks, so
  every inverse lookup is in range (R42, R68, U5). -/
  checked : s.eng.op = .decode → s.eng.phase = .groups →
    s.eng.n.toNat % 4 = 0 ∧ ∀ i, i < s.eng.n.toNat → (s.inByte i).toNat < 0x80

/-- The invariant of the machine. -/
structure State.Inv (s : State) : Prop where
  /-- The build is legal (R6). -/
  legal : s.build.Legal
  /-- `ERR` is 0 while `DONE = 0` (R19). -/
  errWhenDone : s.status.done = false → s.status.err = .ok
  /-- A running command has not completed (R17, R18). -/
  busyNotDone : s.status.busy = true → s.status.done = false
  /-- `OUT_LEN` is 0 until a command completes (R21). -/
  noResult : s.status.done = false → s.outLen = 0
  /-- `OUT_LEN` is 0 after every failure (R21, R77). -/
  failedLength : s.status.err ≠ .ok → s.outLen = 0
  /-- Code 4 is raised only under `STRICT` (R19). -/
  strictOnly : s.status.err = .unexpectedPadding → s.build.padPolicy = .strict
  /-- Every result fits the output buffer (R6, R62, R78). -/
  outFits : s.outLen.toNat ≤ outCap s.build
  /-- The buffers keep their canonical form and their capacities (R24, R25). -/
  inForm : s.inBuf.wf = true ∧ s.inBuf.below s.build.inCap = true
  outForm : s.outBuf.wf = true ∧ s.outBuf.below (outCap s.build) = true
  /-- Every byte of the result has been written (R25). -/
  resultWritten : ∀ i, i < s.outLen.toNat → (s.outBuf.read? i).isSome = true
  /-- What holds while a command runs. -/
  running : s.status.busy = true → s.Running

/-- The observable result of a command (R87): `STATUS.ERR`, `OUT_LEN`, `OUT_BUF[0 .. OUT_LEN-1]`. -/
def State.result (s : State) : ErrCode × Word × List Byte :=
  (s.status.err, s.outLen, s.outBytes s.outLen.toNat)

/-- The accesses that raise `BusError` (R33, R38), in the spec's numbers: misaligned; not 4 bytes
wide among the registers; at a reserved offset; with a byte at or beyond a buffer's capacity. -/
def IllegalAccess (b : Build) (w : Width) (off : Offset) : Prop :=
  let x := off.toNat
  let n := w.bytes
  x % n ≠ 0 ∨
  (x ≤ 0x13 ∧ n ≠ 4) ∨
  (0x14 ≤ x ∧ x ≤ 0xFF) ∨ (0x140 ≤ x ∧ x ≤ 0x17F) ∨ (0x200 ≤ x ∧ x ≤ 0xFFFF) ∨ 0x30000 ≤ x ∨
  (0x10000 ≤ x ∧ x ≤ 0x1FFFF ∧ 0x10000 + b.inCap < x + n) ∨
  (0x20000 ≤ x ∧ x ≤ 0x2FFFF ∧ 0x20000 + 4 * ((b.inCap + 2) / 3) < x + n)

/-- `k` steps of the engine with no other agent moving. -/
def State.engineSteps : Nat → State → State
  | 0, s => s
  | k + 1, s => State.engineSteps k s.engineStep

/-- A move of the host on the bus that is one read or one write. -/
def Event.isAccess : Event → Bool
  | .read _ _ => true
  | .write _ _ _ => true
  | .poll _ _ _ _ => false
  | .engine => false
  | .reset => false

/-- `k` steps of the machine, stopping at the first fault or refusal. -/
def run : Nat → State → Host.Outcome State Fault Refusal
  | 0, s => .next s
  | k + 1, s =>
    match step s with
    | .next t => run k t
    | .fault r => .fault r
    | .refused r => .refused r

/-- `s` is safe for `k` steps: each of them answers a next state. -/
def State.SafeFor (k : Nat) (s : State) : Prop := ∃ t, run k s = .next t

end Sys2Proof.Machine
end

