-- ==== Sys2Proof/Certificates/Slice0/Obligations.lean ====
section
/-! DEFINITION. The statements for the provers, in the order of OBLIGATIONS.json. Each docstring names
the rules of spec/ it formalises, and the log entry where a clause rests on the model's own choice. -/

open Sys2Proof Sys2Proof.Machine

/-! ### Encoding (30_encoding.md) -/

/-- R48, R50: decoding any word of a command gives the command back, with `IGN` at every value, and a
word that decodes to a command is a word of that command: no bit of `OP` is dropped. -/
def Obligations.DecodeInvertsEncode : Prop :=
  ∀ i : Instr, i.WellFormed →
    decode (wordBytes (encode i)) = .ok i ∧
    (∀ ign : BitVec 28, decode (wordBytes (commandWord ign (opcode i))) = .ok i) ∧
    (∀ w : Word, decodeWord w = i → w = commandWord (w.extractLsb' 4 28) (opcode i))

/-- R51: every word is exactly one command: one row of the opcode map matches it, the row of the
well-formed command the decoder reads, which bits 31:4 do not change; and a word with a reserved code
completes at once with `BAD_COMMAND`. -/
def Obligations.EveryWordHasOneMeaning : Prop :=
  ∀ w : Word,
    (decodeWord w).WellFormed ∧
    (opRows.filter fun r => w &&& r.mask == r.pat).map (·.mnemonic) = [mnemonic (decodeWord w)] ∧
    decodeWord w = decodeWord (w &&& 0xF) ∧
    (0x4#4 ≤ w.extractLsb' 0 4 → ∀ s : State, s.status.busy = false →
      exec (decodeWord w) s = .next { s with status := ⟨false, true, .badCommand⟩, outLen := 0 })

/-- R50: the command that each value of `OP` selects, the word of each command with `IGN` = 0, and the
match and mask of each row. -/
def Obligations.OpcodeMapSelectsCommand : Prop :=
  (encode .nop = 0x00000000 ∧ encode .encode = 0x00000001 ∧ encode .decode = 0x00000002 ∧
    encode .clear = 0x00000003) ∧
  ∀ w : Word,
    let op := w.extractLsb' 0 4
    (w &&& 0xF = 0x0 ↔ decodeWord w = .nop) ∧ (w &&& 0xF = 0x1 ↔ decodeWord w = .encode) ∧
    (w &&& 0xF = 0x2 ↔ decodeWord w = .decode) ∧ (w &&& 0xF = 0x3 ↔ decodeWord w = .clear) ∧
    (w &&& 0xC = 0x4 ↔ ∃ c, decodeWord w = .reserved47 c) ∧
    (w &&& 0x8 = 0x8 ↔ ∃ c, decodeWord w = .reserved8F c) ∧
    (0x4#4 ≤ op → encode (decodeWord w) = op.setWidth 32) ∧
    (op = 0x0#4 → decodeWord w = .nop) ∧
    (op = 0x1#4 → decodeWord w = .encode) ∧
    (op = 0x2#4 → decodeWord w = .decode) ∧
    (op = 0x3#4 → decodeWord w = .clear) ∧
    (0x4#4 ≤ op ∧ op ≤ 0x7#4 → decodeWord w = .reserved47 op) ∧
    (0x8#4 ≤ op → decodeWord w = .reserved8F op)

/-- Words written out from the spec (R48, R50; 95_test_vectors.md C6, C7) decode to their commands; two
bytes are no command word, because a word is 32 bits (R48, R52), which the model's decoder on bytes says
by the rejection `notOneWord` (log 16). -/
def Obligations.WrittenOutWordsDecode : Prop :=
  decode [0x00, 0x00, 0x00, 0x00] = .ok .nop ∧
  decode [0x01, 0x00, 0x00, 0x00] = .ok .encode ∧
  decode [0x11, 0x00, 0x00, 0x00] = .ok .encode ∧
  decode [0x02, 0x00, 0x00, 0x00] = .ok .decode ∧
  decode [0x03, 0x00, 0x00, 0x00] = .ok .clear ∧
  decode [0xF4, 0x00, 0x00, 0x00] = .ok (.reserved47 0x4) ∧
  decode [0x07, 0x00, 0x00, 0x00] = .ok (.reserved47 0x7) ∧
  decode [0x0F, 0x00, 0x00, 0x00] = .ok (.reserved8F 0xF) ∧
  decode [0x01, 0x00] = .error .notOneWord

/-! ### The step -/

/-- A step whose move is the write of a word to `CMD` runs the command the word decodes to, at the
state in which the bus has answered the write (R48, R80); `withFetchWord` places such a write at an
idle block (log 4). -/
def Obligations.StepRunsWrittenCommand : Prop :=
  (∀ (s : State) (v : Word) (rest : List Event) (i : Instr),
    s.todo = commandWrite v :: rest → decode (wordBytes v) = .ok i →
      step s = exec i ({ s with todo := rest }.afterWrite .written)) ∧
  (∀ (s : State) (nbits w : Nat) (i : Instr), decodeTableWord nbits w = some i →
      step (s.withFetchWord nbits w) =
        exec i ({ s with status := { s.status with busy := false } }.afterWrite .written))

/-- R89: the machine never stops: every step and every command answers a next state. -/
def Obligations.MachineNeverStops : Prop :=
  (∀ (k : Nat) (s : State), s.SafeFor k) ∧ (∀ (i : Instr) (s : State), ∃ t, exec i s = .next t)

/-- R101: a block that is idle, with no move to come, keeps all its state. -/
def Obligations.IdleBlockKeepsItsState : Prop :=
  ∀ s : State, s.status.busy = false →
    s.engineStep = s ∧ (s.todo = [] → step s = .next s)

/-! ### Reset (10_state.md R28, 70_reset_and_hazards.md R102) -/

/-- R28, R22, R6: every piece of state that has a value after reset has it, and the tables are readable.
Two clauses are the model's choice: `CAPS` reads the constant of the default build of R6, which
`State.reset` holds (log 1), and no byte of a buffer has been written, which is how the model holds the
any value of R28 (log 5, log 6). -/
def Obligations.ResetStateValues : Prop :=
  let s := State.reset
  s.status = ⟨false, false, .ok⟩ ∧ s.inLen = 0 ∧ s.outLen = 0 ∧
  s.readReply .w32 0x00 = .data .w32 0 ∧
  s.readReply .w32 0x04 = .data .w32 0 ∧
  s.readReply .w32 0x10 = .data .w32 0x00001000 ∧
  (∀ i, s.inBuf.read? i = none ∧ s.outBuf.read? i = none) ∧
  (∀ c : Sextet, s.readReply .w8 (0x100 + c.setWidth 18) = .data .w8 ((fwd c).setWidth 32)) ∧
  (∀ c : Code, s.readReply .w8 (0x180 + c.setWidth 18) = .data .w8 ((inv c).setWidth 32))

/-- R102: a reset at any time leaves the registers at their reset values and the engine idle, and a
command that was running never completes. Two clauses are the model's choice: the buffers have no
written byte, which is how the model holds the any value of R102 (log 5, log 6), and the host's moves to
come and its responses stay (log 12). -/
def Obligations.ResetAbandonsRunningCommand : Prop :=
  ∀ (s : State) (rest : List Event), s.todo = .reset :: rest →
    ∃ t, step s = .next t ∧
      t.status = ⟨false, false, .ok⟩ ∧ t.inLen = 0 ∧ t.outLen = 0 ∧
      (∀ i, t.inBuf.read? i = none ∧ t.outBuf.read? i = none) ∧
      t.build = s.build ∧ t.todo = rest ∧ t.replies = s.replies ∧
      (rest = [] → ∀ k, run k t = .next t)

/-- The reset state meets the invariant. -/
def Obligations.ResetMeetsInvariant : Prop := State.reset.Inv

/-- Every step keeps the invariant: the result codes, `BUSY`, `DONE`, `OUT_LEN`, both buffers and the
engine stay as R17 to R21, R24, R25, R27, R42, R77 and R78 say. -/
def Obligations.StepKeepsInvariant : Prop :=
  ∀ s t : State, s.Inv → step s = .next t → t.Inv

/-! ### The control commands (43_control.md) -/

/-- R84: `NOP` changes nothing, whatever the block does. -/
def Obligations.NopChangesNothing : Prop :=
  encode .nop = 0x00000000#32 ∧ ∀ s : State, exec .nop s = .next s

/-- R85: `CLEAR` on an idle block sets `DONE`, `ERR` and `OUT_LEN` to 0 and changes nothing else: no
byte of a buffer, not `IN_LEN`; on a block that has just been reset it changes nothing. -/
def Obligations.ClearAcknowledgesResult : Prop :=
  encode .clear = 0x00000003#32 ∧
  (∀ s : State, s.status.busy = false →
    exec .clear s = .next { s with status := ⟨false, false, .ok⟩, outLen := 0 }) ∧
  exec .clear State.reset = .next State.reset

/-- R86: a reserved code on an idle block completes at once with `BAD_COMMAND` and `OUT_LEN` 0, which
`STATUS` shows as 0x52, and changes nothing else; the write that issues it succeeds. -/
def Obligations.ReservedCodeReportsBadCommand : Prop :=
  ∀ (s : State) (op : BitVec 4), s.status.busy = false →
    (let t := { s with status := ⟨false, true, .badCommand⟩, outLen := 0 }
     exec (.reserved47 op) s = .next t ∧ exec (.reserved8F op) s = .next t ∧
     t.readReply .w32 0x04 = .data .w32 0x00000052) ∧
    (0x4#4 ≤ op → ∀ ign rest, s.todo = commandWrite (commandWord ign op) :: rest →
      ∃ t, step s = .next t ∧ t.todo = rest ∧ t.replies = .written :: s.replies ∧
        ({ s with status := ⟨false, true, .badCommand⟩, outLen := 0 }).SameBlock t ∧
        t.readReply .w32 0x04 = .data .w32 0x00000052 ∧ t.readReply .w32 0x0C = .data .w32 0)

/-- R80: what a write of the word `v` to `CMD` does, by its code, the capacity check included; while
`BUSY = 1` it does nothing (R105). -/
def Obligations.CommandIssueByCode : Prop :=
  ∀ (s : State) (v : Word) (rest : List Event), s.todo = commandWrite v :: rest →
    let op := v.extractLsb' 0 4
    let t := { s with todo := rest, replies := .written :: s.replies, fresh := s.fresh + 1 }
    (s.status.busy = true → step s = .next t) ∧
    (s.status.busy = false →
      (op = 0x0#4 → step s = .next t) ∧
      (op = 0x3#4 → step s = .next { t with status := ⟨false, false, .ok⟩, outLen := 0 }) ∧
      (op = 0x1#4 → s.inLen.toNat ≤ s.build.inCap →
        step s = .next { t with
          status := ⟨true, false, .ok⟩, outLen := 0, eng := ⟨.encode, s.inLen, 0, 0, .check⟩ }) ∧
      (op = 0x2#4 → s.inLen.toNat ≤ s.build.inCap →
        step s = .next { t with
          status := ⟨true, false, .ok⟩, outLen := 0, eng := ⟨.decode, s.inLen, 0, 0, .check⟩ }) ∧
      (op = 0x1#4 ∨ op = 0x2#4 → s.build.inCap < s.inLen.toNat →
        step s = .next { t with status := ⟨false, true, .capacity⟩, outLen := 0 }) ∧
      (0x4#4 ≤ op → step s = .next { t with status := ⟨false, true, .badCommand⟩, outLen := 0 }))

/-- R49: what a command leaves unchanged at its issue. `IN_LEN`, the build and every byte of both
buffers: all commands. The engine: all but `ENCODE` and `DECODE`. `STATUS` and `OUT_LEN`: `NOP`. -/
def Obligations.CommandFrame : Prop :=
  ∀ (i : Instr) (s t : State), exec i s = .next t →
    t.inLen = s.inLen ∧ t.build = s.build ∧ t.era = s.era ∧ t.todo = s.todo ∧
    t.replies = s.replies ∧ t.fresh = s.fresh ∧
    (∀ a, t.inBuf.read? a = s.inBuf.read? a ∧ t.outBuf.read? a = s.outBuf.read? a) ∧
    (∀ a, t.inByte a = s.inByte a ∧ t.outByte a = s.outByte a) ∧
    (i ≠ .encode → i ≠ .decode → t.eng = s.eng ∧ t.status.busy = s.status.busy) ∧
    (i = .nop → t.status = s.status ∧ t.outLen = s.outLen)

/-! ### The tables and the two datapaths (40_lut.md, 41_encode.md, 42_decode.md) -/

/-- R54, in its closed form: the character of each 6-bit value. -/
def Obligations.ForwardTableClosedForm : Prop :=
  ∀ s : Sextet,
    (s.toNat ≤ 25 → (fwd s).toNat = 0x41 + s.toNat) ∧
    (26 ≤ s.toNat → s.toNat ≤ 51 → (fwd s).toNat = 0x61 + (s.toNat - 26)) ∧
    (52 ≤ s.toNat → s.toNat ≤ 61 → (fwd s).toNat = 0x30 + (s.toNat - 52)) ∧
    (s.toNat = 62 → fwd s = 0x2B) ∧ (s.toNat = 63 → fwd s = 0x2F)

/-- R58: the tables are inverse to each other on the alphabet, which has exactly 64 codes; the other
64 codes, `=` among them, have the sentinel. -/
def Obligations.TablesAreInverse : Prop :=
  (∀ s : Sextet, inv ((fwd s).setWidth 7) = s.setWidth 8) ∧
  (∀ c : Code, (inv c).toNat < 64 → fwd ((inv c).setWidth 6) = c.setWidth 8) ∧
  ((List.range 128).filter fun c => decide ((inv (BitVec.ofNat 7 c)).toNat < 64)).length = 64 ∧
  (∀ c : Code, ¬ (inv c).toNat < 64 → inv c = 0xFF) ∧ inv 0x3D = 0xFF

/-- R59: the slicer cuts the 24-bit word `b0 : b1 : b2` into four 6-bit values, high bits first. -/
def Obligations.SliceCutsTheGroupWord : Prop :=
  ∀ b0 b1 b2 : Byte,
    let w : BitVec 24 := b0 ++ b1 ++ b2
    slice b0 b1 b2 =
      (w.extractLsb' 18 6, w.extractLsb' 12 6, w.extractLsb' 6 6, w.extractLsb' 0 6)

/-- R70: the reassembler is the source's shift forms cut to 8 bits, and the inverse of the slicer. -/
def Obligations.ReassembleInvertsSlice : Prop :=
  (∀ v0 v1 v2 v3 : Sextet,
    reassemble v0 v1 v2 v3 =
      ((v0.setWidth 8 <<< 2) ||| (v1.setWidth 8 >>> 4),
       (v1.setWidth 8 <<< 4) ||| (v2.setWidth 8 >>> 2),
       (v2.setWidth 8 <<< 6) ||| v3.setWidth 8)) ∧
  (∀ b0 b1 b2 : Byte,
    let v := slice b0 b1 b2
    reassemble v.1 v.2.1 v.2.2.1 v.2.2.2 = (b0, b1, b2))

/-- R69: positions 0 and 1 accept only members of the alphabet, positions 2 and 3 members or `=`; `=`
at position 0 or 1 is rejected. -/
def Obligations.ValidatorAcceptsPaddingOnlyAtTheEnd : Prop :=
  ∀ c0 c1 c2 c3 : Code,
    (validateGroup c0 c1 c2 c3 = true ↔
      (inv c0).toNat < 64 ∧ (inv c1).toNat < 64 ∧
      (c2 = 0x3D ∨ (inv c2).toNat < 64) ∧ (c3 = 0x3D ∨ (inv c3).toNat < 64)) ∧
    (c0 = 0x3D ∨ c1 = 0x3D → validateGroup c0 c1 c2 c3 = false)

/-- R62, R63, R25: the length of an encode, its padding by the length of the input, no other `=`, and
bit 7 of every character 0. -/
def Obligations.EncodedLengthAndPadding : Prop :=
  ∀ b : List Byte,
    let t := encodeText b
    t.length = 4 * ((b.length + 2) / 3) ∧
    (∀ c ∈ t, c.toNat < 0x80) ∧
    (b.length % 3 = 0 → padChar ∉ t) ∧
    (b.length % 3 = 1 → ∃ p, t = p ++ [padChar, padChar] ∧ padChar ∉ p) ∧
    (b.length % 3 = 2 → ∃ p, t = p ++ [padChar] ∧ padChar ∉ p)

/-- R61, R64: each full group of three bytes gives its four characters at `4g`, and a short last group
is encoded with zeros for the missing bytes. -/
def Obligations.EncodedGroupsInPlace : Prop :=
  ∀ (pre post : List Byte) (b0 b1 b2 : Byte), pre.length % 3 = 0 →
    encodeText (pre ++ b0 :: b1 :: b2 :: post) = encodeText pre ++ encGroup b0 b1 b2 3 ++ encodeText post ∧
    encodeText (pre ++ [b0, b1]) = encodeText pre ++ encGroup b0 b1 0 2 ∧
    encodeText (pre ++ [b0]) = encodeText pre ++ encGroup b0 0 0 1

/-- R67, R68, R76: the length check comes first, then the ASCII check over the whole text, and text
that passes both fails only by a group; `UNEXPECTED_PADDING` is raised only under `STRICT`. -/
def Obligations.DecodeChecksInOrder : Prop :=
  ∀ (policy : PadPolicy) (text : List Byte),
    (text.length % 4 ≠ 0 → decodeText policy text = .error .invalidLength) ∧
    (text.length % 4 = 0 → (∃ b ∈ text, 0x80 ≤ b.toNat) → decodeText policy text = .error .notAscii) ∧
    (text.length % 4 = 0 → (∀ b ∈ text, b.toNat < 0x80) → ∀ e, decodeText policy text = .error e →
      e = .invalidAlphabet ∨ (e = .unexpectedPadding ∧ policy = .strict))

/-- R69, R72, R73, R74, R75, R76: the first group that is not all of members of the alphabet decides:
it is invalid, or its padding is misplaced under `STRICT`, or the output ends in it and no later group
is looked at; and a group of members gives its three bytes before the rest. -/
def Obligations.DecodeStopsAtFirstPaddedOrBadGroup : Prop :=
  ∀ (policy : PadPolicy) (pre post : List Byte) (c0 c1 c2 c3 : Byte),
    pre.length % 4 = 0 → post.length % 4 = 0 →
    (∀ b ∈ pre ++ [c0, c1, c2, c3] ++ post, b.toNat < 0x80) →
    (∀ b ∈ pre, (inv (code b)).toNat < 64) →
    let text := pre ++ [c0, c1, c2, c3] ++ post
    let valid := (inv (code c0)).toNat < 64 ∧ (inv (code c1)).toNat < 64 ∧
      (c2 = 0x3D ∨ (inv (code c2)).toNat < 64) ∧ (c3 = 0x3D ∨ (inv (code c3)).toNat < 64)
    let misplaced := policy = .strict ∧
      ((c2 = 0x3D ∧ c3 ≠ 0x3D) ∨ ((c2 = 0x3D ∨ c3 = 0x3D) ∧ post ≠ []))
    let y := reassemble (sextetOf c0) (sextetOf c1) (sextetOf c2) (sextetOf c3)
    ∃ ys, decodeText policy pre = .ok ys ∧ ys.length = 3 * (pre.length / 4) ∧
      (¬ valid → decodeText policy text = .error .invalidAlphabet) ∧
      (valid → misplaced → decodeText policy text = .error .unexpectedPadding) ∧
      (valid → ¬ misplaced → c2 = 0x3D → decodeText policy text = .ok (ys ++ [y.1])) ∧
      (valid → ¬ misplaced → c2 ≠ 0x3D → c3 = 0x3D →
        decodeText policy text = .ok (ys ++ [y.1, y.2.1])) ∧
      (valid → c2 ≠ 0x3D → c3 ≠ 0x3D →
        decodeText policy text = (decodeText policy post).map fun zs => ys ++ [y.1, y.2.1, y.2.2] ++ zs)

/-- R78: the length of a successful decode: by the place of the first `=` under `TRUNCATE`, by the
number of `=` in the last group under `STRICT`, and never more than `3 * (n / 4)`. -/
def Obligations.DecodedLength : Prop :=
  ∀ (policy : PadPolicy) (text ys : List Byte), decodeText policy text = .ok ys →
    let n := text.length
    let j := text.findIdx (· == padChar)
    ys.length ≤ 3 * (n / 4) ∧ 3 * (n / 4) ≤ n ∧
    (padChar ∉ text → ys.length = 3 * (n / 4)) ∧
    (policy = .truncate → padChar ∈ text →
      (j % 4 = 2 ∧ ys.length = 3 * (j / 4) + 1) ∨ (j % 4 = 3 ∧ ys.length = 3 * (j / 4) + 2)) ∧
    (policy = .strict → ys.length = 3 * (n / 4) - (text.drop (n - 4)).count padChar ∧
      (text.drop (n - 4)).count padChar ≤ 2)

/-- R66 on the functions: decoding an encoded sequence gives it back under both policies. -/
def Obligations.DecodeInvertsEncodeOnText : Prop :=
  ∀ (policy : PadPolicy) (b : List Byte), decodeText policy (encodeText b) = .ok b

/-! ### ENCODE and DECODE as commands (41_encode.md R64, 42_decode.md R75) -/

/-- R64, R80, R81: with `IN_LEN <= IN_CAP`, `ENCODE` on an idle block answers the busy block, and with
the engine alone moving the command completes with `OK`, the length `4 * ceil(n / 3)` and the encoded
text in `OUT_BUF`; the input is unchanged. (The number of steps is the model's, log 9.) -/
def Obligations.EncodeCompletesWithEncodedText : Prop :=
  ∀ s : State, s.build.Legal → s.status.busy = false → s.todo = [] →
    s.inLen.toNat ≤ s.build.inCap →
    let n := s.inLen.toNat
    ∃ (t : State) (k : Nat) (u : State), exec .encode s = .next t ∧
      t = { s with
        status := ⟨true, false, .ok⟩, outLen := 0, eng := ⟨.encode, s.inLen, 0, 0, .check⟩ } ∧
      k ≤ n / 3 + 2 ∧ run k t = .next u ∧
      u.status = ⟨false, true, .ok⟩ ∧ u.outLen.toNat = 4 * ((n + 2) / 3) ∧
      u.outBytes (4 * ((n + 2) / 3)) = encodeText (s.inBytes n) ∧
      u.inLen = s.inLen ∧ u.inBuf = s.inBuf ∧ u.build = s.build ∧ u.era = s.era ∧
      u.todo = [] ∧ u.replies = s.replies

/-- R75, R77, R80, R81: with `IN_LEN <= IN_CAP`, `DECODE` on an idle block answers the busy block, and
with the engine alone moving the command completes: with `OK` and the decoded bytes, or with the code
of the first check that fails and `OUT_LEN` 0; the input is unchanged. (The number of steps is the
model's, log 9.) -/
def Obligations.DecodeCompletesWithDecodedBytes : Prop :=
  ∀ s : State, s.build.Legal → s.status.busy = false → s.todo = [] →
    s.inLen.toNat ≤ s.build.inCap →
    let n := s.inLen.toNat
    ∃ (t : State) (k : Nat) (u : State), exec .decode s = .next t ∧
      t = { s with
        status := ⟨true, false, .ok⟩, outLen := 0, eng := ⟨.decode, s.inLen, 0, 0, .check⟩ } ∧
      k ≤ n / 4 + 2 ∧ run k t = .next u ∧
      (∀ ys, decodeText s.build.padPolicy (s.inBytes n) = .ok ys →
        u.status = ⟨false, true, .ok⟩ ∧ u.outLen.toNat = ys.length ∧ u.outBytes ys.length = ys) ∧
      (∀ e, decodeText s.build.padPolicy (s.inBytes n) = .error e →
        u.status = ⟨false, true, e⟩ ∧ u.outLen = 0) ∧
      u.inLen = s.inLen ∧ u.inBuf = s.inBuf ∧ u.build = s.build ∧ u.era = s.era ∧
      u.todo = [] ∧ u.replies = s.replies

/-- R66: an `ENCODE`, its output copied into `IN_BUF` with `IN_LEN = OUT_LEN`, and a `DECODE` complete
with `OK` and the bytes that were encoded, under both values of `PAD_POLICY`. -/
def Obligations.RoundTripThroughTheBlock : Prop :=
  ∀ s : State, s.build.Legal → s.status.busy = false → s.todo = [] →
    s.inLen.toNat ≤ s.build.inCap → 4 * ((s.inLen.toNat + 2) / 3) ≤ s.build.inCap →
    ∃ (t : State) (k : Nat) (u : State), exec .encode s = .next t ∧ run k t = .next u ∧
      u.status = ⟨false, true, .ok⟩ ∧
      ∀ s' : State, s'.build = s.build → s'.status.busy = false → s'.todo = [] →
        s'.inLen = u.outLen → s'.inBytes u.outLen.toNat = u.outBytes u.outLen.toNat →
        ∃ (t' : State) (k' : Nat) (u' : State), exec .decode s' = .next t' ∧ run k' t' = .next u' ∧
          u'.status = ⟨false, true, .ok⟩ ∧ u'.outLen = s.inLen ∧
          u'.outBytes s.inLen.toNat = s.inBytes s.inLen.toNat

/-- R82: every running command completes after a finite number of engine steps, with no help from the
host. (The bound is the model's, log 9.) -/
def Obligations.RunningCommandCompletes : Prop :=
  ∀ s : State, s.Inv → s.status.busy = true → s.todo = [] →
    ∃ (k : Nat) (u : State), k ≤ s.eng.n.toNat + 2 ∧ run k s = .next u ∧
      u.status.busy = false ∧ u.status.done = true

/-- R24, R35, R42: an engine step writes neither `IN_BUF` nor `IN_LEN`, writes `OUT_BUF` only below
`OUT_CAP`, and its outcome does not depend on `IN_BUF` at or beyond `ENG.N`. -/
def Obligations.EngineStaysInItsBuffers : Prop :=
  ∀ s : State,
    (s.engineStep.inBuf = s.inBuf ∧ s.engineStep.inLen = s.inLen ∧ s.engineStep.build = s.build ∧
      s.engineStep.era = s.era ∧ s.engineStep.todo = s.todo ∧ s.engineStep.replies = s.replies) ∧
    (s.Inv → ∀ i, outCap s.build ≤ i → s.engineStep.outBuf.read? i = s.outBuf.read? i) ∧
    (∀ m : Memory,
      (∀ i, i < s.eng.n.toNat → { s with inBuf := m }.inByte i = s.inByte i) →
      { s with inBuf := m }.engineStep = { s.engineStep with inBuf := m })

/-- R83, R105: while a command runs, whatever reads and writes the host sends between the engine's
steps, the block is as if the engine had moved alone; the engine's next step, which may be the
completion, then gives what it gives alone, the command's result included; and every step while busy
but a reset, a poll's read included, is either the engine's or changes nothing of the block. -/
def Obligations.HostCannotDisturbRunningCommand : Prop :=
  (∀ (s : State) (es rest : List Event),
    (∀ e ∈ es, e.isAccess = true ∨ e = .engine) →
    (∀ j, j ≤ es.count .engine → (State.engineSteps j s).status.busy = true) →
    (s.todo = es ++ rest → ∃ u, run es.length s = .next u ∧ u.todo = rest ∧
      (State.engineSteps (es.count .engine) s).SameBlock u) ∧
    (s.todo = es ++ .engine :: rest → ∃ u, run (es.length + 1) s = .next u ∧ u.todo = rest ∧
      (State.engineSteps (es.count .engine + 1) s).SameBlock u ∧
      (s.Inv → u.result = (State.engineSteps (es.count .engine + 1) s).result))) ∧
  (∀ s t : State, s.status.busy = true → step s = .next t → (∀ rest, s.todo ≠ .reset :: rest) →
    s.SameBlock t ∨
      ((s.todo = [] ∨ ∃ rest, s.todo = .engine :: rest) ∧ s.engineStep.SameBlock t))

/-! ### The registers (10_state.md) -/

/-- R15, R16, R17, R18, R19, R20, R21: what the host reads in `CMD`, `STATUS`, `IN_LEN` and `OUT_LEN`:
the fields of `STATUS` in their places, the seven codes of `ERR` by their numbers, and the reserved bits
0. (`CAPS` is `CapsReportsTheBuild`.) -/
def Obligations.RegisterReads : Prop :=
  ∀ s : State,
    s.readReply .w32 0x00 = .data .w32 0 ∧
    (∃ v : Word, s.readReply .w32 0x04 = .data .w32 v ∧
      v.getLsbD 0 = s.status.busy ∧ v.getLsbD 1 = s.status.done ∧
      (s.status.err = .ok → v.extractLsb' 4 4 = 0) ∧
      (s.status.err = .invalidLength → v.extractLsb' 4 4 = 1) ∧
      (s.status.err = .notAscii → v.extractLsb' 4 4 = 2) ∧
      (s.status.err = .invalidAlphabet → v.extractLsb' 4 4 = 3) ∧
      (s.status.err = .unexpectedPadding → v.extractLsb' 4 4 = 4) ∧
      (s.status.err = .badCommand → v.extractLsb' 4 4 = 5) ∧
      (s.status.err = .capacity → v.extractLsb' 4 4 = 6) ∧
      v.extractLsb' 2 2 = 0 ∧ v.extractLsb' 8 24 = 0) ∧
    s.readReply .w32 0x08 = .data .w32 s.inLen ∧
    s.readReply .w32 0x0C = .data .w32 s.outLen

/-- R22: `CAPS` reads the build parameters in their fields, its other bits 0, and never changes. -/
def Obligations.CapsReportsTheBuild : Prop :=
  ∀ s : State,
    (s.build.Legal → ∃ v : Word, s.readReply .w32 0x10 = .data .w32 v ∧
      (v.extractLsb' 0 16).toNat = s.build.inCap ∧
      v.getLsbD 16 = (s.build.padPolicy == .strict) ∧ v.extractLsb' 17 15 = 0) ∧
    (∀ t, step s = .next t → t.readReply .w32 0x10 = s.readReply .w32 0x10)

/-- R20: a write to `IN_LEN` on an idle block stores any 32-bit value, which a read then returns and
which raises `CAPACITY` at an issue when it is beyond `IN_CAP`; while busy it is ignored; the engine
never writes it. -/
def Obligations.InLenHoldsTheLastValueWritten : Prop :=
  ∀ (s : State) (v : Word) (rest : List Event), s.todo = .write .w32 0x08 v :: rest →
    ∃ t, step s = .next t ∧ t.replies = .written :: s.replies ∧ t.todo = rest ∧
      (s.status.busy = false →
        ({ s with inLen := v }).SameBlock t ∧ t.readReply .w32 0x08 = .data .w32 v ∧
        (s.build.inCap < v.toNat →
          exec .encode t = .next { t with status := ⟨false, true, .capacity⟩, outLen := 0 } ∧
          exec .decode t = .next { t with status := ⟨false, true, .capacity⟩, outLen := 0 })) ∧
      (s.status.busy = true → s.SameBlock t) ∧
      s.engineStep.inLen = s.inLen

/-- R17: `BUSY` is set exactly by the issue of `ENCODE` or `DECODE` within capacity, and cleared only by
the completion, an engine step, or by reset. -/
def Obligations.BusyChangesOnlyAtIssueCompletionReset : Prop :=
  ∀ s t : State, step s = .next t →
    (s.status.busy = false →
      (t.status.busy = true ↔ ∃ v rest, s.todo = commandWrite v :: rest ∧
        (decodeWord v = .encode ∨ decodeWord v = .decode) ∧ s.inLen.toNat ≤ s.build.inCap)) ∧
    (s.status.busy = true → t.status.busy = false →
      (∃ rest, s.todo = .reset :: rest) ∨
      ((s.todo = [] ∨ ∃ rest, s.todo = .engine :: rest) ∧ t.status.done = true)) ∧
    (s.status.busy = true → s.status.done = false → t.status.done = true → t.status.busy = false)

/-- R18: `DONE` is cleared only by the issue of a command other than `NOP` or by reset, and set only by
a completion: an engine step, or the issue of a reserved code or beyond capacity. -/
def Obligations.DoneChangesOnlyAtIssueCompletionReset : Prop :=
  ∀ s t : State, step s = .next t →
    (s.status.done = true → t.status.done = false →
      (∃ rest, s.todo = .reset :: rest) ∨
      (s.status.busy = false ∧ ∃ v rest, s.todo = commandWrite v :: rest ∧ decodeWord v ≠ .nop)) ∧
    (s.status.done = false → t.status.done = true →
      (s.status.busy = true ∧ t.status.busy = false ∧
        (s.todo = [] ∨ ∃ rest, s.todo = .engine :: rest)) ∨
      (s.status.busy = false ∧ ∃ v rest, s.todo = commandWrite v :: rest ∧
        (t.status.err = .badCommand ∨
          (t.status.err = .capacity ∧ s.build.inCap < s.inLen.toNat))))

/-- R20, R24, R29: in one step `IN_LEN` and `IN_BUF` change only by a host write to them while idle, or
by reset, and the build parameters never change. -/
def Obligations.InputsChangeOnlyByIdleWritesOrReset : Prop :=
  ∀ s t : State, step s = .next t →
    t.build = s.build ∧
    (t.inLen ≠ s.inLen → (∃ rest, s.todo = .reset :: rest) ∨
      (s.status.busy = false ∧ ∃ rest, s.todo = .write .w32 0x08 t.inLen :: rest)) ∧
    (t.inBuf ≠ s.inBuf → (∃ rest, s.todo = .reset :: rest) ∨
      (s.status.busy = false ∧ ∃ w off v rest, s.todo = .write w off v :: rest ∧
        0x10000 ≤ off.toNat ∧ off.toNat + w.bytes ≤ 0x10000 + s.build.inCap))

/-! ### The bus (20_memory.md) -/

/-- R33, R38, R39: an access gets `BusError` exactly when it is illegal, then with no data and no change
of the block; a legal read gets its data and a legal write its acknowledgement. -/
def Obligations.BusErrorExactlyOnIllegalAccess : Prop :=
  ∀ (s : State) (w : Width) (off : Offset) (rest : List Event),
    (s.todo = .read w off :: rest → ∃ t, step s = .next t ∧ t.todo = rest ∧ s.SameBlock t ∧
      (IllegalAccess s.build w off → t.replies = .busError :: s.replies) ∧
      (¬ IllegalAccess s.build w off → t.replies = .data w (s.memRead w off) :: s.replies)) ∧
    (∀ v, s.todo = .write w off v :: rest → ∃ t, step s = .next t ∧ t.todo = rest ∧
      (IllegalAccess s.build w off → t.replies = .busError :: s.replies ∧ s.SameBlock t) ∧
      (¬ IllegalAccess s.build w off → t.replies = .written :: s.replies))

/-- R40: a read changes nothing of the block, and two reads of one location with only reads between
them get the same response, but for `OUT_BUF` while busy. That two such reads of a byte of `OUT_BUF`
outside the result agree while idle is the model's choice: U3 gives any value on each read, and the
model follows R40 (log 6). -/
def Obligations.ReadsHaveNoSideEffect : Prop :=
  ∀ (s : State) (w : Width) (off : Offset) (mid rest : List Event),
    (∀ e ∈ mid, ∃ w' off', e = .read w' off') →
    s.todo = .read w off :: mid ++ .read w off :: rest →
    ∃ (t : State) (r r' : Reply) (rs : List Reply), run (mid.length + 2) s = .next t ∧
      s.SameBlock t ∧ t.todo = rest ∧
      t.replies = r' :: rs ++ r :: s.replies ∧ rs.length = mid.length ∧
      (s.status.busy = false ∨ off.toNat < 0x20000 → r' = r)

/-- R40: a host write other than to `CMD` changes nothing of the block but the bytes it stores, in
`IN_LEN` or `IN_BUF`. -/
def Obligations.OnlyCommandWritesHaveSideEffects : Prop :=
  ∀ (s : State) (w : Width) (off : Offset) (v : Word) (rest : List Event),
    s.todo = .write w off v :: rest → off ≠ 0 →
    ∃ t, step s = .next t ∧ t.todo = rest ∧ t.build = s.build ∧ t.status = s.status ∧
      t.outLen = s.outLen ∧ t.outBuf = s.outBuf ∧ t.eng = s.eng ∧ t.era = s.era ∧
      (off ≠ 0x08 → t.inLen = s.inLen) ∧
      (∀ i, (i < off.toNat - 0x10000 ∨ off.toNat + w.bytes ≤ 0x10000 + i ∨
        off.toNat < 0x10000 ∨ 0x20000 ≤ off.toNat) → t.inByte i = s.inByte i)

/-- R31, R36, R37, R39: a legal write to `STATUS`, `OUT_LEN`, `CAPS`, a table window or `OUT_BUF` is
acknowledged and changes nothing of the block. -/
def Obligations.WritesToReadOnlyPlacesIgnored : Prop :=
  ∀ (s : State) (w : Width) (off : Offset) (v : Word) (rest : List Event),
    s.todo = .write w off v :: rest → ¬ IllegalAccess s.build w off →
    (off = 0x04 ∨ off = 0x0C ∨ off = 0x10 ∨ (0x100 ≤ off.toNat ∧ off.toNat ≤ 0x1FF) ∨
      0x20000 ≤ off.toNat) →
    ∃ t, step s = .next t ∧ s.SameBlock t ∧ t.replies = .written :: s.replies ∧ t.todo = rest

/-- R35, R32: in every state a read of `IN_BUF` returns the stored bytes, busy or not, and the engine
never writes the buffer; a write while idle stores its bytes little-endian, so that a read returns them,
and changes no other byte and nothing else; a write while busy is acknowledged and ignored. -/
def Obligations.InBufWritesStoreTheirBytes : Prop :=
  (∀ s : State, s.engineStep.inBuf = s.inBuf ∧
    (s.build.Legal → ∀ i, i < s.build.inCap →
      s.readReply .w8 (BitVec.ofNat 18 (0x10000 + i)) = .data .w8 ((s.inByte i).setWidth 32))) ∧
  ∀ (s : State) (w : Width) (off : Offset) (v : Word) (rest : List Event),
    s.build.Legal → 0x10000 ≤ off.toNat → off.toNat ≤ 0x1FFFF → ¬ IllegalAccess s.build w off →
    s.todo = .write w off v :: rest →
    ∃ t, step s = .next t ∧ t.replies = .written :: s.replies ∧ t.todo = rest ∧
      (s.status.busy = true → s.SameBlock t) ∧
      (s.status.busy = false →
        (∀ k, k < w.bytes → t.inByte (off.toNat - 0x10000 + k) = v.extractLsb' (8 * k) 8) ∧
        (∀ i, (i < off.toNat - 0x10000 ∨ off.toNat - 0x10000 + w.bytes ≤ i) →
          t.inByte i = s.inByte i) ∧
        t.readReply w off = .data w (v &&& BitVec.ofNat 32 (2 ^ (8 * w.bytes) - 1)) ∧
        ({ s with inBuf := t.inBuf }).SameBlock t)

/-- R32: a 2-byte or 4-byte read of a table window or a buffer is its bytes as 1-byte reads give them,
the lowest offset least significant. -/
def Obligations.WideReadsAreLittleEndian : Prop :=
  ∀ (s : State) (off : Offset), 0x100 ≤ off.toNat →
    (¬ IllegalAccess s.build .w16 off → ∃ b0 b1 : Byte,
      s.readReply .w8 off = .data .w8 (b0.setWidth 32) ∧
      s.readReply .w8 (off + 1) = .data .w8 (b1.setWidth 32) ∧
      s.readReply .w16 off = .data .w16 ((b1 ++ b0).setWidth 32)) ∧
    (¬ IllegalAccess s.build .w32 off → ∃ b0 b1 b2 b3 : Byte,
      s.readReply .w8 off = .data .w8 (b0.setWidth 32) ∧
      s.readReply .w8 (off + 1) = .data .w8 (b1.setWidth 32) ∧
      s.readReply .w8 (off + 2) = .data .w8 (b2.setWidth 32) ∧
      s.readReply .w8 (off + 3) = .data .w8 (b3.setWidth 32) ∧
      s.readReply .w32 off = .data .w32 (b3 ++ b2 ++ b1 ++ b0))

/-- R37: byte `0x100 + c` of the host space is `FWD[c]` and byte `0x180 + c` is `INV[c]`, in every
state; a multi-byte read gives consecutive entries; a write to either window is ignored. -/
def Obligations.TableWindowsShowTheTables : Prop :=
  ∀ s : State,
    (∀ c : Sextet, s.readReply .w8 (0x100 + c.setWidth 18) = .data .w8 ((fwd c).setWidth 32)) ∧
    (∀ c : Code, s.readReply .w8 (0x180 + c.setWidth 18) = .data .w8 ((inv c).setWidth 32)) ∧
    (∀ c : Sextet, c.toNat % 4 = 0 → s.readReply .w32 (0x100 + c.setWidth 18) =
      .data .w32 (fwd (c + 3) ++ fwd (c + 2) ++ fwd (c + 1) ++ fwd c)) ∧
    (∀ c : Code, c.toNat % 4 = 0 → s.readReply .w32 (0x180 + c.setWidth 18) =
      .data .w32 (inv (c + 3) ++ inv (c + 2) ++ inv (c + 1) ++ inv c)) ∧
    (∀ c : Sextet, c.toNat % 2 = 0 → s.readReply .w16 (0x100 + c.setWidth 18) =
      .data .w16 ((fwd (c + 1) ++ fwd c).setWidth 32)) ∧
    (∀ c : Code, c.toNat % 2 = 0 → s.readReply .w16 (0x180 + c.setWidth 18) =
      .data .w16 ((inv (c + 1) ++ inv c).setWidth 32)) ∧
    s.readReply .w32 0x100 = .data .w32 0x44434241 ∧
    (∀ w off v rest, s.todo = .write w off v :: rest → 0x100 ≤ off.toNat → off.toNat ≤ 0x1FF →
      ∃ t, step s = .next t ∧ s.SameBlock t)

/-- R36: while the block is idle, a read of a byte of the result returns the stored byte. -/
def Obligations.ResultBytesReadBack : Prop :=
  ∀ s : State, s.status.busy = false → s.outLen.toNat ≤ outCap s.build → s.build.Legal →
    ∀ i, i < s.outLen.toNat →
      s.readReply .w8 (BitVec.ofNat 18 (0x20000 + i)) = .data .w8 ((s.outByte i).setWidth 32)

/-! ### While a command runs (43_control.md R83, 70_reset_and_hazards.md R105, R106) -/

/-- R105: while `BUSY = 1`, a write to `CMD`, `IN_LEN` or `IN_BUF` completes without error and changes
nothing of the block. -/
def Obligations.WritesWhileBusyAreIgnored : Prop :=
  ∀ (s : State) (w : Width) (off : Offset) (v : Word) (rest : List Event),
    s.todo = .write w off v :: rest → s.status.busy = true → ¬ IllegalAccess s.build w off →
    (off = 0x00 ∨ off = 0x08 ∨ (0x10000 ≤ off.toNat ∧ off.toNat ≤ 0x1FFFF)) →
    ∃ t, step s = .next t ∧ t.replies = .written :: s.replies ∧ t.todo = rest ∧ s.SameBlock t

/-- R83: while a command runs, `STATUS` reads 0x00000001 and `OUT_LEN` reads 0. -/
def Obligations.RunningCommandShowsOnlyBusy : Prop :=
  ∀ s : State, s.Inv → s.status.busy = true →
    s.readReply .w32 0x04 = .data .w32 0x00000001 ∧ s.readReply .w32 0x0C = .data .w32 0

/-- R53: a poll is one read of its offset; the host goes on when the masked data are the value, and
otherwise the poll stands again, after engine steps at the pace that log 10 describes. That nothing but
engine steps comes between the reads is the model's choice (log 21). A read that gets `BusError` never
meets the condition (log 10). -/
def Obligations.PollRepeatsUntilItsConditionHolds : Prop :=
  ∀ (s : State) (off : Offset) (mask v : Word) (pace : List Nat) (rest : List Event),
    s.todo = .poll off mask v pace :: rest →
    ∃ t, step s = .next t ∧ s.SameBlock t ∧ t.replies = s.readReply .w32 off :: s.replies ∧
      (∀ d, s.readReply .w32 off = .data .w32 d → d &&& mask = v → t.todo = rest) ∧
      ((∀ d, s.readReply .w32 off = .data .w32 d → d &&& mask ≠ v) →
        ∃ k pace', t.todo = List.replicate k .engine ++ .poll off mask v pace' :: rest)

/-- R43, R53, R82, R106, R109: `WAITDONE` at a running command ends, and then the block is idle with the
command completed and its result is the one that the engine alone reaches at its completion; the host
need do nothing else. That the engine takes its steps between the poll's reads is the model's choice, at
any finite pace and then one step after each read (log 10), which stands for the weak fairness of R82 and
R109; and so is that no other host's access and no reset comes between the reads (log 21). -/
def Obligations.WaitDoneEndsAtCompletion : Prop :=
  Script.waitDone = [.poll 0x04 0x00000003 0x00000002 []] ∧
  ∀ (s : State) (pace : List Nat), s.Inv → s.status.busy = true →
    s.todo = [.poll 0x04 0x00000003 0x00000002 pace] →
    ∃ (k j : Nat) (u : State), run k s = .next u ∧ u.todo = [] ∧
      u.status.busy = false ∧ u.status.done = true ∧
      (∀ i, i < j → (State.engineSteps i s).status.busy = true) ∧
      (State.engineSteps j s).status.busy = false ∧ (State.engineSteps j s).SameBlock u ∧
      u.result = (State.engineSteps j s).result
end

