-- ==== Sys2Proof/Laws/Memory.lean ====
section
/-! SUPPORT. The laws of a buffer: a read after a write to the same index gives the byte written, a
write leaves every other index alone, and every operation keeps the canonical form and the capacity. -/

namespace Sys2Proof.Machine.Memory

@[simp] theorem read?_nil (a : Nat) : Memory.read? [] a = none := rfl

theorem read?_cons (k : Nat) (v : Byte) (m : Memory) (a : Nat) :
    Memory.read? ((k, v) :: m) a = if k = a then some v else m.read? a := rfl

@[simp] theorem read?_write_same (m : Memory) (a : Nat) (b : Byte) :
    (m.write a b).read? a = some b := by
  induction m with
  | nil => simp [write, read?_cons]
  | cons c m ih =>
    obtain ⟨k, v⟩ := c
    simp only [write]
    split
    · simp [read?_cons]
    · split
      · simp [read?_cons]
      · rename_i h; simp [read?_cons, ih, Ne.symm h]

theorem read?_write_other (m : Memory) {a c : Nat} (b : Byte) (h : c ≠ a) :
    (m.write a b).read? c = m.read? c := by
  induction m with
  | nil => simp [write, read?_cons, h.symm]
  | cons d m ih =>
    obtain ⟨k, v⟩ := d
    simp only [write]
    split
    · simp [read?_cons, h.symm]
    · split
      · rename_i hk; subst hk; simp [read?_cons, h.symm]
      · simp [read?_cons, ih]

@[simp] theorem writeSeq_nil (m : Memory) (a : Nat) : m.writeSeq a [] = m := rfl

@[simp] theorem writeSeq_cons (m : Memory) (a : Nat) (b : Byte) (bs : List Byte) :
    m.writeSeq a (b :: bs) = (m.write a b).writeSeq (a + 1) bs := rfl

/-- Bytes outside the run of indexes written are unchanged. -/
theorem read?_writeSeq_other (bs : List Byte) (m : Memory) {a c : Nat}
    (h : c < a ∨ a + bs.length ≤ c) : (m.writeSeq a bs).read? c = m.read? c := by
  induction bs generalizing m a with
  | nil => rfl
  | cons b bs ih =>
    simp only [List.length_cons] at h
    rw [writeSeq_cons, ih _ (by omega), read?_write_other _ _ (by omega)]

/-- Bytes inside it are the bytes written. -/
theorem read?_writeSeq (bs : List Byte) (m : Memory) (a k : Nat) (h : k < bs.length) :
    (m.writeSeq a bs).read? (a + k) = some bs[k] := by
  induction bs generalizing m a k with
  | nil => simp at h
  | cons b bs ih =>
    rw [writeSeq_cons]
    cases k with
    | zero => rw [Nat.add_zero, read?_writeSeq_other _ _ (by omega)]; simp
    | succ k =>
      have h' : k < bs.length := by simpa using h
      have := ih (m.write a b) (a + 1) k h'
      simpa [Nat.add_assoc, Nat.add_comm 1 k] using this

theorem wf_cons_iff (k : Nat) (v : Byte) (m : Memory) :
    Memory.wf ((k, v) :: m) = true ↔ m.wf = true ∧ ∀ d ∈ m.head?, k < d.1 := by
  cases m with
  | nil => simp [wf]
  | cons d m => simp [wf, and_comm]

theorem head_write (m : Memory) (a : Nat) (b : Byte) {k : Nat}
    (hm : ∀ d ∈ m.head?, k < d.1) (h : k < a) : ∀ d ∈ (m.write a b).head?, k < d.1 := by
  cases m with
  | nil => simpa [write] using h
  | cons c m =>
    obtain ⟨j, v⟩ := c
    have hj : k < j := by simpa using hm
    simp only [write]
    split
    · simpa using h
    · split
      · simpa using h
      · simpa using hj

/-- A write keeps the canonical form. -/
theorem wf_write (m : Memory) (a : Nat) (b : Byte) (h : m.wf = true) : (m.write a b).wf = true := by
  induction m with
  | nil => rfl
  | cons c m ih =>
    obtain ⟨k, v⟩ := c
    obtain ⟨hm, hk⟩ := (wf_cons_iff _ _ _).1 h
    simp only [write]
    split
    · rename_i hlt; exact (wf_cons_iff _ _ _).2 ⟨h, by simpa using hlt⟩
    · split
      · rename_i heq; exact (wf_cons_iff _ _ _).2 ⟨hm, heq ▸ hk⟩
      · exact (wf_cons_iff _ _ _).2 ⟨ih hm, head_write _ _ _ hk (by omega)⟩

theorem wf_writeSeq (bs : List Byte) (m : Memory) (a : Nat) (h : m.wf = true) :
    (m.writeSeq a bs).wf = true := by
  induction bs generalizing m a with
  | nil => exact h
  | cons b bs ih => exact ih _ _ (wf_write _ _ _ h)

/-- A write below the capacity keeps every index below it. -/
theorem below_write (m : Memory) {a cap : Nat} (b : Byte) (h : m.below cap = true) (ha : a < cap) :
    (m.write a b).below cap = true := by
  induction m with
  | nil => simpa [write, below] using ha
  | cons c m ih =>
    obtain ⟨k, v⟩ := c
    simp only [below, List.all_cons, Bool.and_eq_true, decide_eq_true_eq] at h ih
    simp only [write]
    split
    · simp [below, ha, h.1]; simpa using h.2
    · split
      · simp [below, ha]; simpa using h.2
      · simp only [below, List.all_cons, Bool.and_eq_true, decide_eq_true_eq]
        exact ⟨h.1, ih h.2⟩

theorem below_writeSeq (bs : List Byte) (m : Memory) {a cap : Nat} (h : m.below cap = true)
    (ha : a + bs.length ≤ cap) : (m.writeSeq a bs).below cap = true := by
  induction bs generalizing m a with
  | nil => exact h
  | cons b bs ih =>
    simp only [List.length_cons] at ha
    exact ih _ (below_write _ _ h (by omega)) (by omega)

/-- No index at or beyond the capacity holds a written byte. -/
theorem read?_of_below (m : Memory) {a cap : Nat} (h : m.below cap = true) (ha : cap ≤ a) :
    m.read? a = none := by
  induction m with
  | nil => rfl
  | cons c m ih =>
    obtain ⟨k, v⟩ := c
    simp only [below, List.all_cons, Bool.and_eq_true, decide_eq_true_eq] at h ih
    rw [read?_cons, if_neg (by omega), ih h.2]

/-- Two buffers in canonical form that read alike are the same data. -/
theorem eq_of_read? {m m' : Memory} (h : m.wf = true) (h' : m'.wf = true)
    (hr : ∀ a, m.read? a = m'.read? a) : m = m' := by
  have lower : ∀ (m : Memory) (k : Nat), m.wf = true → (∀ d ∈ m.head?, k < d.1) →
      ∀ a, a ≤ k → m.read? a = none := by
    intro m
    induction m with
    | nil => intros; rfl
    | cons c m ih =>
      obtain ⟨j, v⟩ := c
      intro k hw hk a ha
      have hj : k < j := by simpa using hk
      obtain ⟨hm, hd⟩ := (wf_cons_iff _ _ _).1 hw
      rw [read?_cons, if_neg (by omega)]
      exact ih j hm hd a (by omega)
  induction m generalizing m' with
  | nil =>
    cases m' with
    | nil => rfl
    | cons c m' =>
      obtain ⟨k, v⟩ := c
      have := hr k
      simp [read?_cons] at this
  | cons c m ih =>
    obtain ⟨k, v⟩ := c
    cases m' with
    | nil => have := hr k; simp [read?_cons] at this
    | cons c' m' =>
      obtain ⟨k', v'⟩ := c'
      obtain ⟨hm, hd⟩ := (wf_cons_iff _ _ _).1 h
      obtain ⟨hm', hd'⟩ := (wf_cons_iff _ _ _).1 h'
      have hk : k = k' := by
        rcases Nat.lt_trichotomy k k' with hlt | heq | hgt
        · have := hr k
          rw [read?_cons, if_pos rfl, read?_cons, if_neg (by omega), lower _ _ hm' hd' _ (by omega)] at this
          cases this
        · exact heq
        · have := hr k'
          rw [read?_cons, if_neg (by omega), lower _ _ hm hd _ (by omega), read?_cons, if_pos rfl] at this
          cases this
      subst hk
      have hv := hr k
      simp only [read?_cons, if_true] at hv
      cases hv
      congr 1
      refine ih hm hm' fun a => ?_
      have := hr a
      simp only [read?_cons] at this
      split at this
      · rename_i he; subst he
        rw [lower _ _ hm hd _ (Nat.le_refl _), lower _ _ hm' hd' _ (Nat.le_refl _)]
      · exact this

end Sys2Proof.Machine.Memory
end

