-- ==== Sys2Proof/Laws/State.lean ====
section
/-! SUPPORT. One lemma for each field under each shared update of State, true by rfl, so that no proof
unfolds a record update. -/

namespace Sys2Proof.Machine.State

variable (s : State)

/-! ### draw -/
@[simp] theorem draw_build : s.draw.build = s.build := rfl
@[simp] theorem draw_status : s.draw.status = s.status := rfl
@[simp] theorem draw_inLen : s.draw.inLen = s.inLen := rfl
@[simp] theorem draw_outLen : s.draw.outLen = s.outLen := rfl
@[simp] theorem draw_inBuf : s.draw.inBuf = s.inBuf := rfl
@[simp] theorem draw_outBuf : s.draw.outBuf = s.outBuf := rfl
@[simp] theorem draw_eng : s.draw.eng = s.eng := rfl
@[simp] theorem draw_todo : s.draw.todo = s.todo := rfl
@[simp] theorem draw_replies : s.draw.replies = s.replies := rfl
@[simp] theorem draw_era : s.draw.era = s.era := rfl
@[simp] theorem draw_fresh : s.draw.fresh = s.fresh + 1 := rfl

/-! ### reply -/
variable (r : Reply)
@[simp] theorem reply_build : (s.reply r).build = s.build := rfl
@[simp] theorem reply_status : (s.reply r).status = s.status := rfl
@[simp] theorem reply_inLen : (s.reply r).inLen = s.inLen := rfl
@[simp] theorem reply_outLen : (s.reply r).outLen = s.outLen := rfl
@[simp] theorem reply_inBuf : (s.reply r).inBuf = s.inBuf := rfl
@[simp] theorem reply_outBuf : (s.reply r).outBuf = s.outBuf := rfl
@[simp] theorem reply_eng : (s.reply r).eng = s.eng := rfl
@[simp] theorem reply_todo : (s.reply r).todo = s.todo := rfl
@[simp] theorem reply_replies : (s.reply r).replies = r :: s.replies := rfl
@[simp] theorem reply_era : (s.reply r).era = s.era := rfl
@[simp] theorem reply_fresh : (s.reply r).fresh = s.fresh := rfl

/-! ### complete -/
variable (e : ErrCode) (len : Word)
@[simp] theorem complete_build : (s.complete e len).build = s.build := rfl
@[simp] theorem complete_status : (s.complete e len).status = ⟨false, true, e⟩ := rfl
@[simp] theorem complete_inLen : (s.complete e len).inLen = s.inLen := rfl
@[simp] theorem complete_outLen : (s.complete e len).outLen = len := rfl
@[simp] theorem complete_inBuf : (s.complete e len).inBuf = s.inBuf := rfl
@[simp] theorem complete_outBuf : (s.complete e len).outBuf = s.outBuf := rfl
@[simp] theorem complete_eng : (s.complete e len).eng = s.eng := rfl
@[simp] theorem complete_todo : (s.complete e len).todo = s.todo := rfl
@[simp] theorem complete_replies : (s.complete e len).replies = s.replies := rfl
@[simp] theorem complete_era : (s.complete e len).era = s.era := rfl
@[simp] theorem complete_fresh : (s.complete e len).fresh = s.fresh := rfl

/-! ### begin -/
@[simp] theorem begin_build : s.begin.build = s.build := rfl
@[simp] theorem begin_status : s.begin.status = ⟨s.status.busy, false, .ok⟩ := rfl
@[simp] theorem begin_inLen : s.begin.inLen = s.inLen := rfl
@[simp] theorem begin_outLen : s.begin.outLen = 0 := rfl
@[simp] theorem begin_inBuf : s.begin.inBuf = s.inBuf := rfl
@[simp] theorem begin_outBuf : s.begin.outBuf = s.outBuf := rfl
@[simp] theorem begin_eng : s.begin.eng = s.eng := rfl
@[simp] theorem begin_todo : s.begin.todo = s.todo := rfl
@[simp] theorem begin_replies : s.begin.replies = s.replies := rfl
@[simp] theorem begin_era : s.begin.era = s.era := rfl
@[simp] theorem begin_fresh : s.begin.fresh = s.fresh := rfl

/-! ### emit -/
variable (i : Nat) (bs : List Byte)
@[simp] theorem emit_build : (s.emit i bs).build = s.build := rfl
@[simp] theorem emit_status : (s.emit i bs).status = s.status := rfl
@[simp] theorem emit_inLen : (s.emit i bs).inLen = s.inLen := rfl
@[simp] theorem emit_outLen : (s.emit i bs).outLen = s.outLen := rfl
@[simp] theorem emit_inBuf : (s.emit i bs).inBuf = s.inBuf := rfl
@[simp] theorem emit_outBuf : (s.emit i bs).outBuf = s.outBuf.writeSeq i bs := rfl
@[simp] theorem emit_eng :
    (s.emit i bs).eng = { s.eng with w := s.eng.w + BitVec.ofNat 32 bs.length } := rfl
@[simp] theorem emit_todo : (s.emit i bs).todo = s.todo := rfl
@[simp] theorem emit_replies : (s.emit i bs).replies = s.replies := rfl
@[simp] theorem emit_era : (s.emit i bs).era = s.era := rfl
@[simp] theorem emit_fresh : (s.emit i bs).fresh = s.fresh := rfl

/-! ### resetBlock -/
@[simp] theorem resetBlock_build : s.resetBlock.build = s.build := rfl
@[simp] theorem resetBlock_status : s.resetBlock.status = ⟨false, false, .ok⟩ := rfl
@[simp] theorem resetBlock_inLen : s.resetBlock.inLen = 0 := rfl
@[simp] theorem resetBlock_outLen : s.resetBlock.outLen = 0 := rfl
@[simp] theorem resetBlock_inBuf : s.resetBlock.inBuf = [] := rfl
@[simp] theorem resetBlock_outBuf : s.resetBlock.outBuf = [] := rfl
@[simp] theorem resetBlock_eng : s.resetBlock.eng = Engine.initial := rfl
@[simp] theorem resetBlock_todo : s.resetBlock.todo = s.todo := rfl
@[simp] theorem resetBlock_replies : s.resetBlock.replies = s.replies := rfl
@[simp] theorem resetBlock_era : s.resetBlock.era = s.era + 1 := rfl

/-! ### The bytes of the buffers depend on few fields -/
@[simp] theorem draw_inByte (a : Nat) : s.draw.inByte a = s.inByte a := rfl
@[simp] theorem reply_inByte (a : Nat) : (s.reply r).inByte a = s.inByte a := rfl
@[simp] theorem complete_inByte (a : Nat) : (s.complete e len).inByte a = s.inByte a := rfl
@[simp] theorem begin_inByte (a : Nat) : s.begin.inByte a = s.inByte a := rfl
@[simp] theorem emit_inByte (a : Nat) : (s.emit i bs).inByte a = s.inByte a := rfl

theorem inByte_congr {s t : State} (hb : t.inBuf = s.inBuf) (he : t.era = s.era) (a : Nat) :
    t.inByte a = s.inByte a := by simp [inByte, hb, he]

theorem inBytes_congr {s t : State} (hb : t.inBuf = s.inBuf) (he : t.era = s.era) (n : Nat) :
    t.inBytes n = s.inBytes n := by
  simp only [inBytes]; exact List.map_congr_left fun a _ => inByte_congr hb he a

@[simp] theorem inBytes_length (n : Nat) : (s.inBytes n).length = n := by simp [inBytes]
@[simp] theorem outBytes_length (n : Nat) : (s.outBytes n).length = n := by simp [outBytes]

theorem inBytes_getElem (n a : Nat) (h : a < (s.inBytes n).length) :
    (s.inBytes n)[a] = s.inByte a := by simp [inBytes]

theorem mem_inBytes {n : Nat} {b : Byte} : b ∈ s.inBytes n ↔ ∃ a, a < n ∧ s.inByte a = b := by
  simp [inBytes]

/-- A byte that has been written is what a read of it finds, whatever the draw. -/
theorem outByte_of_written {a : Nat} {b : Byte} (h : s.outBuf.read? a = some b) :
    s.outByte a = b := by simp [outByte, h]

/-! ### SameBlock -/
theorem SameBlock.refl : s.SameBlock s := ⟨rfl, rfl, rfl, rfl, rfl, rfl, rfl, rfl⟩

theorem SameBlock.trans {s t u : State} (h : s.SameBlock t) (k : t.SameBlock u) : s.SameBlock u :=
  ⟨k.1.trans h.1, k.2.trans h.2, k.3.trans h.3, k.4.trans h.4, k.5.trans h.5, k.6.trans h.6,
   k.7.trans h.7, k.8.trans h.8⟩

theorem SameBlock.symm {s t : State} (h : s.SameBlock t) : t.SameBlock s :=
  ⟨h.1.symm, h.2.symm, h.3.symm, h.4.symm, h.5.symm, h.6.symm, h.7.symm, h.8.symm⟩

theorem sameBlock_draw : s.SameBlock s.draw := ⟨rfl, rfl, rfl, rfl, rfl, rfl, rfl, rfl⟩
theorem sameBlock_reply : s.SameBlock (s.reply r) := ⟨rfl, rfl, rfl, rfl, rfl, rfl, rfl, rfl⟩
theorem sameBlock_todo (es : List Event) : s.SameBlock { s with todo := es } :=
  ⟨rfl, rfl, rfl, rfl, rfl, rfl, rfl, rfl⟩

theorem SameBlock.inByte {s t : State} (h : s.SameBlock t) (a : Nat) : t.inByte a = s.inByte a :=
  inByte_congr h.inBuf h.era a

/-- The invariant is a property of the block alone. -/
theorem SameBlock.inv {s t : State} (h : s.SameBlock t) (hi : s.Inv) : t.Inv := by
  obtain ⟨b, st, il, ol, ib, ob, en, er⟩ := h
  obtain ⟨h1, h2, h3, h4, h5, h6, h7, h8, h9, h10, h11⟩ := hi
  have hin : ∀ a, t.inByte a = s.inByte a := inByte_congr ib er
  refine ⟨?_, ?_, ?_, ?_, ?_, ?_, ?_, ?_, ?_, ?_, ?_⟩
  all_goals (try simp only [b, st, ol, ib, ob]; try assumption)
  intro hb
  obtain ⟨r1, r2, r3, r4, r5, r6, r7⟩ := h11 hb
  constructor <;> simp only [b, il, ob, en, hin] <;> assumption

end Sys2Proof.Machine.State
end

