-- ==== Sys2Proof/Laws/Codec.lean ====
section
/-! SUPPORT. What the datapath functions can answer, said once: the shape of an encoded group, the cases
of a decoded group, and everything one engine step can do. -/

namespace Sys2Proof.Machine

@[simp] theorem encGroup_length (b0 b1 b2 : Byte) (k : Nat) : (encGroup b0 b1 b2 k).length = 4 := rfl

/-- A group that fails has one of the two codes, the second only under `STRICT`. -/
theorem decGroup_bad {p : PadPolicy} {last : Bool} {c0 c1 c2 c3 : Byte} {e : ErrCode}
    (h : decGroup p last c0 c1 c2 c3 = .bad e) :
    e = .invalidAlphabet ∨ (e = .unexpectedPadding ∧ p = .strict) := by
  simp only [decGroup] at h
  split at h
  · exact .inl (by cases h; rfl)
  · split at h
    · rename_i h2
      cases h
      refine .inr ⟨rfl, ?_⟩
      cases p <;> simp_all
    · split at h
      · cases h
      · split at h <;> cases h

/-- A group that ends the output emits one or two bytes. -/
theorem decGroup_stop {p : PadPolicy} {last : Bool} {c0 c1 c2 c3 : Byte} {ys : List Byte}
    (h : decGroup p last c0 c1 c2 c3 = .stop ys) : ys.length = 1 ∨ ys.length = 2 := by
  simp only [decGroup] at h
  split at h
  · cases h
  · split at h
    · cases h
    · split at h
      · cases h; exact .inl rfl
      · split at h
        · cases h; exact .inr rfl
        · cases h

/-- A group that goes on emits three bytes. -/
theorem decGroup_more {p : PadPolicy} {last : Bool} {c0 c1 c2 c3 : Byte} {ys : List Byte}
    (h : decGroup p last c0 c1 c2 c3 = .more ys) : ys.length = 3 := by
  simp only [decGroup] at h
  split at h
  · cases h
  · split at h
    · cases h
    · split at h
      · cases h
      · split at h
        · cases h
        · cases h; rfl

/-- Everything one pass of the encoder's loop can do. -/
theorem State.encodeGroup_cases (s : State) :
    (3 * s.eng.g.toNat + 3 ≤ s.eng.n.toNat ∧ ∃ bs, bs.length = 4 ∧
      s.encodeGroup = { s.emit (4 * s.eng.g.toNat) bs with
        eng := { (s.emit (4 * s.eng.g.toNat) bs).eng with g := s.eng.g + 1 } }) ∨
    ((s.eng.n.toNat = 3 * s.eng.g.toNat + 1 ∨ s.eng.n.toNat = 3 * s.eng.g.toNat + 2) ∧
      ∃ bs, bs.length = 4 ∧ s.encodeGroup =
        (s.emit (4 * s.eng.g.toNat) bs).complete .ok (BitVec.ofNat 32 (encodedLength s.eng.n.toNat))) ∨
    (s.eng.n.toNat ≤ 3 * s.eng.g.toNat ∧
      s.encodeGroup = s.complete .ok (BitVec.ofNat 32 (encodedLength s.eng.n.toNat))) := by
  simp only [State.encodeGroup]
  split
  · rename_i h; exact .inl ⟨h, _, encGroup_length _ _ _ _, rfl⟩
  · split
    · rename_i h; exact .inr (.inl ⟨.inl h, _, encGroup_length _ _ _ _, rfl⟩)
    · split
      · rename_i h; exact .inr (.inl ⟨.inr h, _, encGroup_length _ _ _ _, rfl⟩)
      · exact .inr (.inr ⟨by omega, rfl⟩)

/-- Everything the decoder's whole-input checks can do. -/
theorem State.decodeCheck_cases (s : State) :
    (s.eng.n.toNat % 4 ≠ 0 ∧ s.decodeCheck = s.complete .invalidLength 0) ∨
    (s.eng.n.toNat % 4 = 0 ∧ (∃ i, i < s.eng.n.toNat ∧ 0x80 ≤ (s.inByte i).toNat) ∧
      s.decodeCheck = s.complete .notAscii 0) ∨
    (s.eng.n.toNat % 4 = 0 ∧ (∀ i, i < s.eng.n.toNat → (s.inByte i).toNat < 0x80) ∧
      s.decodeCheck = { s with eng := { s.eng with phase := .groups } }) := by
  simp only [State.decodeCheck]
  split
  · rename_i h; exact .inl ⟨h, rfl⟩
  · rename_i h
    split
    · rename_i h2
      obtain ⟨b, hb, hn⟩ := List.any_eq_true.1 h2
      obtain ⟨i, hi, rfl⟩ := s.mem_inBytes.1 hb
      exact .inr (.inl ⟨by omega, ⟨i, hi, by simpa [notAsciiByte] using hn⟩, rfl⟩)
    · rename_i h2
      refine .inr (.inr ⟨by omega, fun i hi => ?_, rfl⟩)
      by_contra hc
      exact h2 (List.any_eq_true.2 ⟨_, s.mem_inBytes.2 ⟨i, hi, rfl⟩, by simp [notAsciiByte]; omega⟩)

/-- Everything one pass of the decoder's loop can do. -/
theorem State.decodeGroup_cases (s : State) :
    (s.eng.n.toNat / 4 ≤ s.eng.g.toNat ∧ s.decodeGroup = s.complete .ok s.eng.w) ∨
    (s.eng.g.toNat < s.eng.n.toNat / 4 ∧
      ((∃ e, (e = .invalidAlphabet ∨ (e = .unexpectedPadding ∧ s.build.padPolicy = .strict)) ∧
          s.decodeGroup = s.complete e 0) ∨
        (∃ ys, (ys.length = 1 ∨ ys.length = 2) ∧ s.decodeGroup =
          (s.emit s.eng.w.toNat ys).complete .ok (s.emit s.eng.w.toNat ys).eng.w) ∨
        (∃ ys, ys.length = 3 ∧ s.decodeGroup = { s.emit s.eng.w.toNat ys with
          eng := { (s.emit s.eng.w.toNat ys).eng with g := s.eng.g + 1 } }))) := by
  simp only [State.decodeGroup]
  split
  · rename_i h; exact .inl ⟨h, rfl⟩
  · rename_i h
    refine .inr ⟨by omega, ?_⟩
    split
    · rename_i e he; exact .inl ⟨e, decGroup_bad he, rfl⟩
    · rename_i ys he; exact .inr (.inl ⟨ys, decGroup_stop he, rfl⟩)
    · rename_i ys he; exact .inr (.inr ⟨ys, decGroup_more he, rfl⟩)

/-- One step of a running engine is one of four things, by command and phase. -/
theorem State.runningStep_cases (s : State) :
    (s.eng.op = .encode ∧ s.eng.phase = .check ∧
      s.runningStep = { s with eng := { s.eng with phase := .groups } }) ∨
    (s.eng.op = .encode ∧ s.eng.phase = .groups ∧ s.runningStep = s.encodeGroup) ∨
    (s.eng.op = .decode ∧ s.eng.phase = .check ∧ s.runningStep = s.decodeCheck) ∨
    (s.eng.op = .decode ∧ s.eng.phase = .groups ∧ s.runningStep = s.decodeGroup) := by
  simp only [State.runningStep]
  cases s.eng.op <;> cases s.eng.phase <;> simp

@[simp] theorem State.engineStep_idle {s : State} (h : s.status.busy = false) : s.engineStep = s := by
  simp [State.engineStep, h]

theorem State.engineStep_busy {s : State} (h : s.status.busy = true) :
    s.engineStep = s.runningStep.draw := by simp [State.engineStep, h]

/-- What no engine step changes. -/
theorem State.engineStep_frame (s : State) :
    s.engineStep.build = s.build ∧ s.engineStep.inLen = s.inLen ∧ s.engineStep.inBuf = s.inBuf ∧
    s.engineStep.era = s.era ∧ s.engineStep.todo = s.todo ∧ s.engineStep.replies = s.replies := by
  cases hb : s.status.busy
  · simp [hb]
  · rw [State.engineStep_busy hb]
    rcases s.runningStep_cases with ⟨-, -, h⟩ | ⟨-, -, h⟩ | ⟨-, -, h⟩ | ⟨-, -, h⟩ <;> simp only [h]
    · simp
    · rcases s.encodeGroup_cases with ⟨-, _, -, h⟩ | ⟨-, _, -, h⟩ | ⟨-, h⟩ <;> simp [h]
    · rcases s.decodeCheck_cases with ⟨-, h⟩ | ⟨-, -, h⟩ | ⟨-, -, h⟩ <;> simp [h]
    · rcases s.decodeGroup_cases with ⟨-, h⟩ | ⟨-, ⟨_, -, h⟩ | ⟨_, -, h⟩ | ⟨_, -, h⟩⟩ <;> simp [h]

/-- An engine step either leaves `STATUS` and `OUT_LEN` or is the completion. -/
theorem State.engineStep_status (s : State) :
    (s.engineStep.status = s.status ∧ s.engineStep.outLen = s.outLen) ∨
    (s.status.busy = true ∧ ∃ e, s.engineStep.status = ⟨false, true, e⟩) := by
  cases hb : s.status.busy
  · simp [hb]
  · rw [State.engineStep_busy hb]
    rcases s.runningStep_cases with ⟨-, -, h⟩ | ⟨-, -, h⟩ | ⟨-, -, h⟩ | ⟨-, -, h⟩ <;> simp only [h]
    · simp
    · rcases s.encodeGroup_cases with ⟨-, _, -, h⟩ | ⟨-, _, -, h⟩ | ⟨-, h⟩ <;> simp [h]
    · rcases s.decodeCheck_cases with ⟨-, h⟩ | ⟨-, -, h⟩ | ⟨-, -, h⟩ <;> simp [h]
    · rcases s.decodeGroup_cases with ⟨-, h⟩ | ⟨-, ⟨_, -, h⟩ | ⟨_, -, h⟩ | ⟨_, -, h⟩⟩ <;> simp [h]

end Sys2Proof.Machine
end

