-- ==== Sys2Proof/Laws/Step.lean ====
section
/-! SUPPORT. What a command's issue, a bus access and a step can do, said once. Proofs about steps cite
these cases and do not unfold the port. -/

namespace Sys2Proof.Machine

/-! ### Commands -/

@[simp] theorem State.issue_busy {s : State} (h : s.status.busy = true) (f : State → State) :
    s.issue f = .next s := by simp [State.issue, h]

@[simp] theorem State.issue_idle {s : State} (h : s.status.busy = false) (f : State → State) :
    s.issue f = .next (f s) := by simp [State.issue, h]

/-- What a command does to an idle block. -/
def effect : Instr → State → State
  | .nop => id
  | .encode => State.startEngine .encode
  | .decode => State.startEngine .decode
  | .clear => State.begin
  | .reserved47 _ => State.rejectCommand
  | .reserved8F _ => State.rejectCommand

theorem exec_eq_issue (i : Instr) (s : State) : exec i s = s.issue (effect i) := by cases i <;> rfl

/-- A command answers a next state, and says which. -/
theorem exec_eq (i : Instr) (s : State) :
    exec i s = .next (if s.status.busy then s else effect i s) := exec_eq_issue i s

theorem State.startEngine_fits {s : State} (op : EngOp) (h : s.inLen.toNat ≤ s.build.inCap) :
    s.startEngine op = { s with
      status := ⟨true, false, .ok⟩, outLen := 0, eng := ⟨op, s.inLen, 0, 0, .check⟩ } := by
  simp only [State.startEngine, if_neg (Nat.not_lt.2 h)]; rfl

theorem State.startEngine_beyond {s : State} (op : EngOp) (h : s.build.inCap < s.inLen.toNat) :
    s.startEngine op = { s with status := ⟨false, true, .capacity⟩, outLen := 0 } := by
  simp only [State.startEngine, if_pos h]; rfl

theorem State.rejectCommand_eq (s : State) :
    s.rejectCommand = { s with status := ⟨false, true, .badCommand⟩, outLen := 0 } := rfl

/-- What no command changes at its issue. -/
theorem effect_frame (i : Instr) (s : State) :
    (effect i s).build = s.build ∧ (effect i s).inLen = s.inLen ∧ (effect i s).inBuf = s.inBuf ∧
    (effect i s).outBuf = s.outBuf ∧ (effect i s).era = s.era ∧ (effect i s).todo = s.todo ∧
    (effect i s).replies = s.replies ∧ (effect i s).fresh = s.fresh := by
  have start : ∀ op, (s.startEngine op).build = s.build ∧ (s.startEngine op).inLen = s.inLen ∧
      (s.startEngine op).inBuf = s.inBuf ∧ (s.startEngine op).outBuf = s.outBuf ∧
      (s.startEngine op).era = s.era ∧ (s.startEngine op).todo = s.todo ∧
      (s.startEngine op).replies = s.replies ∧ (s.startEngine op).fresh = s.fresh := by
    intro op
    rcases Nat.lt_or_ge s.build.inCap s.inLen.toNat with h | h
    · simp [State.startEngine_beyond op h]
    · simp [State.startEngine_fits op h]
  cases i <;> simp [effect, start, State.rejectCommand]

/-! ### The port -/

@[simp] theorem accepts_cmd (b : Build) : accepts b .w32 0 = true := by
  simp [accepts, aligned, regionAccepts, region, Width.bytes]

/-- A register access is one of five offsets, 4 bytes wide. -/
theorem accepts_regs {b : Build} {w : Width} {off : Offset} (h : accepts b w off = true)
    (hr : region off.toNat = .regs) :
    w = .w32 ∧ (off = 0x00 ∨ off = 0x04 ∨ off = 0x08 ∨ off = 0x0C ∨ off = 0x10) := by
  simp only [accepts, aligned, regionAccepts, hr, Bool.and_eq_true, beq_iff_eq] at h
  obtain ⟨ha, rfl⟩ := h
  simp only [Width.bytes] at ha
  have hlt : off.toNat < 0x14 := by
    simp only [region] at hr
    by_contra hc
    simp only [hc, if_false] at hr
    repeat' split at hr
    all_goals cases hr
  refine ⟨rfl, ?_⟩
  have : off.toNat = 0 ∨ off.toNat = 4 ∨ off.toNat = 8 ∨ off.toNat = 12 ∨ off.toNat = 16 := by omega
  simpa [← BitVec.toNat_inj] using this

/-- The region of an offset, in the numbers of R31. -/
theorem region_eq_inBuf {x : Nat} : region x = .inBuf ↔ 0x10000 ≤ x ∧ x < 0x20000 := by
  simp only [region]
  repeat' split
  all_goals simp
  all_goals omega

theorem region_eq_outBuf {x : Nat} : region x = .outBuf ↔ 0x20000 ≤ x ∧ x < 0x30000 := by
  simp only [region]
  repeat' split
  all_goals simp
  all_goals omega

theorem region_eq_fwd {x : Nat} : region x = .fwd ↔ 0x100 ≤ x ∧ x < 0x140 := by
  simp only [region]
  repeat' split
  all_goals simp
  all_goals omega

theorem region_eq_inv {x : Nat} : region x = .inv ↔ 0x180 ≤ x ∧ x < 0x200 := by
  simp only [region]
  repeat' split
  all_goals simp
  all_goals omega

theorem region_eq_regs {x : Nat} : region x = .regs ↔ x < 0x14 := by
  simp only [region]
  repeat' split
  all_goals simp
  all_goals omega

theorem region_eq_reserved {x : Nat} : region x = .reserved ↔
    (0x14 ≤ x ∧ x < 0x100) ∨ (0x140 ≤ x ∧ x < 0x180) ∨ (0x200 ≤ x ∧ x < 0x10000) ∨ 0x30000 ≤ x := by
  simp only [region]
  repeat' split
  all_goals simp
  all_goals omega

/-- The bus accepts exactly the accesses that the spec's numbers call legal. -/
theorem accepts_iff (b : Build) (w : Width) (off : Offset) :
    accepts b w off = true ↔ ¬ IllegalAccess b w off := by
  simp only [accepts, aligned, regionAccepts, IllegalAccess, Bool.and_eq_true, beq_iff_eq]
  generalize off.toNat = x
  cases hr : region x
  case regs => have := region_eq_regs.1 hr; cases w <;> simp [Width.bytes] <;> omega
  case fwd => have := region_eq_fwd.1 hr; cases w <;> simp [Width.bytes] <;> omega
  case inv => have := region_eq_inv.1 hr; cases w <;> simp [Width.bytes] <;> omega
  case inBuf =>
    have := region_eq_inBuf.1 hr
    simp only [decide_eq_true_eq]
    cases w <;> simp only [Width.bytes, inBase] <;> omega
  case outBuf =>
    have := region_eq_outBuf.1 hr
    simp only [decide_eq_true_eq]
    cases w <;> simp only [Width.bytes, outBase, outCap] <;> omega
  case reserved => have := region_eq_reserved.1 hr; cases w <;> simp [Width.bytes] <;> omega

/-- Everything a write can do. -/
theorem State.busWrite_cases (s : State) (w : Width) (off : Offset) (v : Word) :
    (accepts s.build w off = false ∧ s.busWrite w off v = .next (s.afterWrite .busError)) ∨
    (accepts s.build w off = true ∧
      ((w = .w32 ∧ off = 0x00 ∧
          s.busWrite w off v = exec (decodeWord v) (s.afterWrite .written)) ∨
        (w = .w32 ∧ off = 0x08 ∧
          s.busWrite w off v = .next ((s.afterWrite .written).writeInLen v)) ∨
        (region off.toNat = .inBuf ∧ s.busWrite w off v =
          .next ((s.afterWrite .written).writeInBuf (off.toNat - inBase) (writtenBytes w v))) ∨
        ((off = 0x04 ∨ off = 0x0C ∨ off = 0x10 ∨ region off.toNat = .fwd ∨ region off.toNat = .inv ∨
            region off.toNat = .outBuf) ∧
          s.busWrite w off v = .next (s.afterWrite .written)))) := by
  cases ha : accepts s.build w off
  · exact .inl ⟨rfl, by simp [State.busWrite, ha]⟩
  · refine .inr ⟨rfl, ?_⟩
    simp only [State.busWrite, ha, if_true, State.acceptedWrite]
    cases hr : region off.toNat
    · obtain ⟨rfl, h⟩ := accepts_regs ha hr
      rcases h with rfl | rfl | rfl | rfl | rfl <;> simp [State.writeRegister]
    · simp
    · simp
    · simp
    · simp
    · simp [accepts, regionAccepts, hr] at ha

/-- A read changes nothing of the block. -/
theorem State.sameBlock_busRead (s : State) (w : Width) (off : Offset) :
    s.SameBlock (s.busRead w off) := by
  simp only [State.busRead, State.afterRead]
  split
  · exact (s.sameBlock_reply _).trans (State.sameBlock_draw _)
  · exact s.sameBlock_reply _

@[simp] theorem State.busRead_replies (s : State) (w : Width) (off : Offset) :
    (s.busRead w off).replies = s.readReply w off :: s.replies := by
  simp only [State.busRead, State.afterRead]; split <;> rfl

@[simp] theorem State.busRead_todo (s : State) (w : Width) (off : Offset) :
    (s.busRead w off).todo = s.todo := by
  simp only [State.busRead, State.afterRead]; split <;> rfl

theorem State.sameBlock_pollRead (s : State) (off : Offset) (mask v : Word) (pace : List Nat) :
    s.SameBlock (s.pollRead off mask v pace) := by
  simp only [State.pollRead]
  split
  · exact s.sameBlock_busRead _ _
  · exact (s.sameBlock_busRead _ _).trans (State.sameBlock_todo _ _)

theorem State.sameBlock_afterWrite (s : State) (r : Reply) : s.SameBlock (s.afterWrite r) :=
  (s.sameBlock_reply r).trans (State.sameBlock_draw _)

/-! ### A step -/

/-- A step is one move: the oldest of those to come, or the engine's when there is none. -/
theorem step_cases (s : State) :
    (s.todo = [] ∧ step s = .next s.engineStep) ∨
    (∃ e rest, s.todo = e :: rest ∧ step s = { s with todo := rest }.perform e) := by
  simp only [step, State.nextMove]
  cases h : s.todo with
  | nil => exact .inl ⟨rfl, rfl⟩
  | cons e rest => exact .inr ⟨e, rest, rfl, rfl⟩

theorem step_of_todo {s : State} {e : Event} {rest : List Event} (h : s.todo = e :: rest) :
    step s = { s with todo := rest }.perform e := by simp [step, State.nextMove, h]

theorem step_of_nil {s : State} (h : s.todo = []) : step s = .next s.engineStep := by
  simp [step, State.nextMove, h]

theorem run_succ {k : Nat} {s t : State} (h : step s = .next t) : run (k + 1) s = run k t := by
  simp [run, h]

theorem run_add {j k : Nat} {s t : State} (h : run j s = .next t) : run (j + k) s = run k t := by
  induction j generalizing s with
  | zero => simp only [run] at h; cases h; simp
  | succ j ih =>
    rw [Nat.add_right_comm]
    simp only [run] at h ⊢
    cases hs : step s with
    | next u => rw [hs] at h; exact ih h
    | fault r => rw [hs] at h; cases h
    | refused r => rw [hs] at h; cases h

/-- With no other move to come, steps of the machine are steps of the engine. -/
theorem run_eq_engineSteps {s : State} (h : s.todo = []) (k : Nat) :
    run k s = .next (State.engineSteps k s) := by
  induction k generalizing s with
  | zero => rfl
  | succ k ih =>
    rw [run_succ (step_of_nil h)]
    exact ih (s.engineStep_frame.2.2.2.2.1.trans h)

end Sys2Proof.Machine
end

