-- ==== Sys2Proof/Laws/PerInstr.lean ====
section
/-! SUPPORT. Facts of each command as syntax, one lemma a constructor. -/

/-- The encoder's word lies in the command's row of the opcode map and its ignored bits are 0 (R48,
R50). -/
def Sys2Proof.Laws.EncodedInItsRow.Statement (i : Sys2Proof.Instr) : Prop :=
  i.WellFormed → (Sys2Proof.encode i).extractLsb' 4 28 = 0 ∧
    ∃ r ∈ Sys2Proof.opRows, r.mnemonic = Sys2Proof.mnemonic i ∧ Sys2Proof.encode i &&& r.mask = r.pat

namespace Sys2Proof.Laws.EncodedInItsRow

theorem nop : Statement .nop := fun _ => by decide
theorem encode : Statement .encode := fun _ => by decide
theorem decode : Statement .decode := fun _ => by decide
theorem clear : Statement .clear := fun _ => by decide

theorem reserved47 (op : BitVec 4) : Statement (.reserved47 op) := by
  unfold Statement; revert op; decide

theorem reserved8F (op : BitVec 4) : Statement (.reserved8F op) := by
  unfold Statement; revert op; decide

end Sys2Proof.Laws.EncodedInItsRow
end

