-- ==== Sys2Proof/Tests/Slice0.lean ====
section
/-! SUPPORT. Tests of one step or one function each, with the vectors of 95_test_vectors.md (their ids
stand in the docstrings), and for every statement with hypotheses a witness that meets them. -/

namespace Sys2Proof.Tests.Slice0

open Sys2Proof Sys2Proof.Machine

/-! ### Helpers -/

/-- The next state, if there is one. -/
def okState : Host.Outcome State Fault Refusal → Option State
  | .next s => some s
  | .fault _ => none
  | .refused _ => none

/-- An idle block, right after reset but for the bytes loaded from `IN_BUF[0]` and their length. -/
def loaded (policy : PadPolicy) (bs : List Byte) : State :=
  { State.reset with
    build := ⟨4096, policy⟩, inBuf := Memory.writeSeq [] 0 bs, inLen := BitVec.ofNat 32 bs.length }

/-- `loaded`, running a command in the given phase at its first group. -/
def running (op : EngOp) (phase : Phase) (policy : PadPolicy) (bs : List Byte) : State :=
  { loaded policy bs with
    status := ⟨true, false, .ok⟩, eng := ⟨op, BitVec.ofNat 32 bs.length, 0, 0, phase⟩ }

/-- An idle block with the result of `encode([1])` (S1). -/
def finished : State :=
  { loaded .truncate [0x01] with
    status := ⟨false, true, .ok⟩, outLen := 4, outBuf := [(0, 0x41), (1, 0x51), (2, 0x3D), (3, 0x3D)]
    eng := ⟨.encode, 1, 0, 4, .groups⟩ }

/-- An idle block with a failed decode. -/
def failed (e : ErrCode) : State := { State.reset with status := ⟨false, true, e⟩, inLen := 8 }

/-- What one move answers. -/
def after (s : State) (e : Event) : Option State := okState (step { s with todo := [e] })

/-! ### WellFormed -/

theorem test_wf_refuses_reserved47_outside_its_row :
    ¬ (Instr.reserved47 0x3).WellFormed ∧ ¬ (Instr.reserved47 0x8).WellFormed ∧
    (Instr.reserved47 0x4).WellFormed ∧ (Instr.reserved47 0x7).WellFormed := by decide

theorem test_wf_refuses_reserved8F_outside_its_row :
    ¬ (Instr.reserved8F 0x0).WellFormed ∧ ¬ (Instr.reserved8F 0x7).WellFormed ∧
    (Instr.reserved8F 0x8).WellFormed ∧ (Instr.reserved8F 0xF).WellFormed := by decide

/-! ### Decoding: words written out from R48 and R50 -/

theorem test_decode_nop :
    decodeWord 0b00000000000000000000000000000000 = .nop ∧ decodeWord 0xFFFFFFF0 = .nop := by decide

/-- The second word is C7. -/
theorem test_decode_encode :
    decodeWord 0b00000000000000000000000000000001 = .encode ∧ decodeWord 0x00000011 = .encode := by
  decide

theorem test_decode_decode :
    decodeWord 0b00000000000000000000000000000010 = .decode ∧ decodeWord 0xABCDEF02 = .decode := by
  decide

theorem test_decode_clear :
    decodeWord 0b00000000000000000000000000000011 = .clear ∧ decodeWord 0x80000003 = .clear := by decide

/-- C5, C6. -/
theorem test_decode_reserved47 :
    decodeWord 0b00000000000000000000000000000111 = .reserved47 0x7 ∧
    decodeWord 0x000000F4 = .reserved47 0x4 := by decide

theorem test_decode_reserved8F :
    decodeWord 0b00000000000000000000000000001000 = .reserved8F 0x8 ∧
    decodeWord 0x0000001F = .reserved8F 0xF := by decide

/-- The first byte is the lowest (R32); what is not one 32-bit word is no command (R52). -/
theorem test_decode_bytes :
    decode [0x02, 0x01, 0x01, 0x01] = .ok .decode ∧ decode [0x01, 0x00, 0x00] = .error .notOneWord ∧
    decode [0x01, 0x00, 0x00, 0x00, 0x00] = .error .notOneWord ∧ decode [] = .error .notOneWord := by
  decide

theorem test_decodeTableWord :
    decodeTableWord 32 0x00000002 = some .decode ∧ decodeTableWord 32 0x00000008 = some (.reserved8F 8) := by
  decide

/-! ### Tables and datapaths -/

/-- L1, L2. -/
theorem test_fwd :
    [fwd 0, fwd 25, fwd 26, fwd 51, fwd 52, fwd 61, fwd 62, fwd 63] =
      [0x41, 0x5A, 0x61, 0x7A, 0x30, 0x39, 0x2B, 0x2F] := by decide

/-- L3, L4. -/
theorem test_inv_members :
    [inv 0x41, inv 0x5A, inv 0x61, inv 0x7A, inv 0x30, inv 0x39, inv 0x2B, inv 0x2F] =
      [0x00, 0x19, 0x1A, 0x33, 0x34, 0x3D, 0x3E, 0x3F] := by decide

/-- L5. -/
theorem test_inv_sentinels :
    [inv 0x3D, inv 0x23, inv 0x00, inv 0x7F, inv 0x40, inv 0x60, inv 0x2C, inv 0x2D, inv 0x5F] =
      List.replicate 9 0xFF := by decide

/-- E3, E4, E5, E6, E7. -/
theorem test_slice :
    slice 0x01 0x02 0x03 = (0, 16, 8, 3) ∧ slice 0x4D 0x61 0x6E = (19, 22, 5, 46) ∧
    slice 0xFC 0x0F 0xC0 = (63, 0, 63, 0) ∧ slice 0x03 0xF0 0x3F = (0, 63, 0, 63) ∧
    slice 0x80 0x00 0x01 = (32, 0, 0, 1) := by decide

/-- E8, E9, E10. -/
theorem test_encGroup :
    encGroup 0x00 0x00 0x00 1 = [0x41, 0x41, 0x3D, 0x3D] ∧
    encGroup 0xFF 0x00 0x00 1 = [0x2F, 0x77, 0x3D, 0x3D] ∧
    encGroup 0xFF 0xFF 0x00 2 = [0x2F, 0x2F, 0x38, 0x3D] := by decide

/-- D1, D2, D3, D4. -/
theorem test_reassemble :
    reassemble 0 16 8 3 = (0x01, 0x02, 0x03) ∧ reassemble 63 63 63 63 = (0xFF, 0xFF, 0xFF) ∧
    reassemble 19 22 5 46 = (0x4D, 0x61, 0x6E) ∧ reassemble 0 17 63 63 = (0x01, 0x1F, 0xFF) := by decide

/-- D5: `AQ==`, `AQI=`, `AQ=A`, `////`. -/
theorem test_validate_passes :
    validateGroup 0x41 0x51 0x3D 0x3D = true ∧ validateGroup 0x41 0x51 0x49 0x3D = true ∧
    validateGroup 0x41 0x51 0x3D 0x41 = true ∧ validateGroup 0x2F 0x2F 0x2F 0x2F = true := by decide

/-- D6: `=AAA`, `A=AA`, `AB#=`, `AB#A`, `AQ=#`. -/
theorem test_validate_rejects :
    validateGroup 0x3D 0x41 0x41 0x41 = false ∧ validateGroup 0x41 0x3D 0x41 0x41 = false ∧
    validateGroup 0x41 0x42 0x23 0x3D = false ∧ validateGroup 0x41 0x42 0x23 0x41 = false ∧
    validateGroup 0x41 0x51 0x3D 0x23 = false := by decide

/-- S1, S2, S3, S7, E24. -/
theorem test_encodeText :
    encodeText [0x01] = [0x41, 0x51, 0x3D, 0x3D] ∧ encodeText [0x01, 0x02] = [0x41, 0x51, 0x49, 0x3D] ∧
    encodeText [0x01, 0x02, 0x03] = [0x41, 0x51, 0x49, 0x44] ∧ encodeText [] = [] ∧
    encodeText [0xF8, 0xF9, 0xFA, 0xFB, 0xFC, 0xFD, 0xFE, 0xFF] =
      [0x2B, 0x50, 0x6E, 0x36, 0x2B, 0x2F, 0x7A, 0x39, 0x2F, 0x76, 0x38, 0x3D] := by decide

/-- S5. -/
theorem test_encodeText_flag :
    encodeText [0x63, 0x72, 0x79, 0x70, 0x74, 0x6F, 0x7B, 0x41, 0x53, 0x43, 0x49, 0x49, 0x5F, 0x70, 0x72,
      0x31, 0x6E, 0x74, 0x34, 0x62, 0x6C, 0x33, 0x7D] =
    [0x59, 0x33, 0x4A, 0x35, 0x63, 0x48, 0x52, 0x76, 0x65, 0x30, 0x46, 0x54, 0x51, 0x30, 0x6C, 0x4A,
      0x58, 0x33, 0x42, 0x79, 0x4D, 0x57, 0x35, 0x30, 0x4E, 0x47, 0x4A, 0x73, 0x4D, 0x33, 0x30, 0x3D] := by
  decide

/-- S4, S8, D11, D14, D15. -/
theorem test_decodeText_ok :
    decodeText .truncate [0x41, 0x51, 0x49, 0x44] = .ok [0x01, 0x02, 0x03] ∧
    decodeText .truncate [] = .ok [] ∧
    decodeText .strict [0x41, 0x51, 0x49, 0x44, 0x41, 0x51, 0x3D, 0x3D] = .ok [0x01, 0x02, 0x03, 0x01] ∧
    decodeText .strict [0x41, 0x52, 0x3D, 0x3D] = .ok [0x01] ∧
    decodeText .strict [0x41, 0x51, 0x4A, 0x3D] = .ok [0x01, 0x02] := by decide

/-- D7, D8, D10: the two padding policies. -/
theorem test_decodeText_policy :
    decodeText .truncate [0x41, 0x51, 0x3D, 0x3D, 0x41, 0x51, 0x49, 0x44] = .ok [0x01] ∧
    decodeText .strict [0x41, 0x51, 0x3D, 0x3D, 0x41, 0x51, 0x49, 0x44] = .error .unexpectedPadding ∧
    decodeText .truncate [0x41, 0x51, 0x3D, 0x41] = .ok [0x01] ∧
    decodeText .strict [0x41, 0x51, 0x3D, 0x41] = .error .unexpectedPadding ∧
    decodeText .truncate [0x41, 0x51, 0x3D, 0x3D, 0x23, 0x23, 0x23, 0x23] = .ok [0x01] ∧
    decodeText .strict [0x41, 0x51, 0x3D, 0x3D, 0x23, 0x23, 0x23, 0x23] = .error .unexpectedPadding := by
  decide

/-- D27, D28, D29, D30, D31, D32, D25: the order of the checks. -/
theorem test_decodeText_order :
    decodeText .strict [0x80] = .error .invalidLength ∧
    decodeText .strict [0x41, 0x80, 0x3D, 0x3D] = .error .notAscii ∧
    decodeText .strict [0x41, 0x42, 0x23] = .error .invalidLength ∧
    decodeText .truncate [0x41, 0x51, 0x3D, 0x3D, 0x80, 0x41, 0x41, 0x41] = .error .notAscii ∧
    decodeText .strict [0x41, 0x42, 0x23, 0x41, 0x41, 0x51, 0x3D, 0x41] = .error .invalidAlphabet ∧
    decodeText .strict [0x41, 0x51, 0x3D, 0x41, 0x41, 0x42, 0x23, 0x41] = .error .unexpectedPadding ∧
    decodeText .truncate [0x41, 0x51, 0x49, 0x44, 0x00, 0x41, 0x41, 0x41] = .error .invalidAlphabet := by
  decide

/-! ### Commands -/

/-- C1, C2. -/
theorem test_nop_keeps_status :
    okState (exec .nop (failed .invalidAlphabet)) = some (failed .invalidAlphabet) ∧
    (after State.reset (commandWrite 0x00000000)).map (·.status) = some ⟨false, false, .ok⟩ := by decide

/-- C7: the issue, through a write with ignored bits set. -/
theorem test_encode_issues :
    (after (loaded .truncate [0x01]) (commandWrite 0x00000011)).map
        (fun t => (t.status, t.outLen, t.eng, t.replies)) =
      some (⟨true, false, .ok⟩, 0, ⟨.encode, 1, 0, 0, .check⟩, [.written]) := by decide

/-- E26: the last step of an encode of 1 byte, with `FF` left over behind it. -/
theorem test_encode_last_step :
    { running .encode .groups .truncate [0x01, 0xFF, 0xFF] with
      inLen := 1, eng := ⟨.encode, 1, 0, 0, .groups⟩ : State }.engineStep.result =
      (.ok, 4, [0x41, 0x51, 0x3D, 0x3D]) := by decide

/-- C8, and D33: capacity comes first. -/
theorem test_decode_beyond_capacity :
    (okState (exec .decode { State.reset with inLen := 0xFFFFFFF0 })).map
        (fun t => (t.status, t.outLen, t.inLen)) = some (⟨false, true, .capacity⟩, 0, 0xFFFFFFF0) ∧
    (okState (exec .decode { State.reset with inLen := 4097 })).map (·.status) =
      some ⟨false, true, .capacity⟩ := by decide

/-- D8: the one group of `AQ=A`, under each policy. -/
theorem test_decode_last_group :
    (running .decode .groups .truncate [0x41, 0x51, 0x3D, 0x41]).engineStep.result = (.ok, 1, [0x01]) ∧
    (running .decode .groups .strict [0x41, 0x51, 0x3D, 0x41]).engineStep.result =
      (.unexpectedPadding, 0, []) := by decide

/-- C3: `CLEAR` keeps `IN_LEN`, `IN_BUF` and `OUT_BUF`. -/
theorem test_clear :
    okState (exec .clear finished) =
      some { finished with status := ⟨false, false, .ok⟩, outLen := 0 } := by decide

/-- C5: through the fetch convention of log 4. -/
theorem test_reserved47 :
    (okState (step (finished.withFetchWord 32 0x00000007))).map
        (fun t => (t.readReply .w32 0x04, t.outLen, t.todo)) =
      some (.data .w32 0x52, 0, []) := by decide

theorem test_reserved8F :
    (okState (step (State.reset.withFetchWord 32 0x0000000F))).map
        (fun t => (t.readReply .w32 0x04, t.inLen)) = some (.data .w32 0x52, 0) := by decide

/-! ### The bus and reset -/

/-- L8, L9, L10, L11, L12. -/
theorem test_table_windows :
    [State.reset.readReply .w32 0x100, State.reset.readReply .w32 0x13C, State.reset.readReply .w32 0x1A8,
     State.reset.readReply .w32 0x1BC, State.reset.readReply .w8 0x1C1, State.reset.readReply .w16 0x1F0] =
    [.data .w32 0x44434241, .data .w32 0x2F2B3938, .data .w32 0x3EFFFFFF, .data .w32 0xFFFFFFFF,
     .data .w8 0x00, .data .w16 0x2A29] := by decide

/-- B1, B2, B3, B6. -/
theorem test_bus_errors :
    [State.reset.readReply .w8 0x00, State.reset.readReply .w16 0x04, State.reset.readReply .w32 0x10002,
     State.reset.readReply .w8 0x11000, State.reset.readReply .w32 0x14, State.reset.readReply .w32 0x140,
     State.reset.readReply .w32 0x200, State.reset.readReply .w32 0x30000] =
    List.replicate 8 .busError := by decide

/-- B1: the narrow write to `CMD` issues nothing. -/
theorem test_narrow_command_write :
    (after State.reset (.write .w8 0x00 1)).map (fun t => (t.status, t.replies)) =
      some (⟨false, false, .ok⟩, [.busError]) := by decide

/-- B4, B5: the capacities, in whole accesses. -/
theorem test_capacities :
    { State.reset with build := ⟨4097, .strict⟩ }.readReply .w32 0x11000 = .busError ∧
    accepts ⟨4097, .strict⟩ .w8 0x11000 = true ∧
    accepts ⟨4096, .strict⟩ .w32 0x21554 = true ∧
    State.reset.readReply .w32 0x21558 = .busError := by decide

/-- B7: little-endian. -/
theorem test_write_in_buf :
    (after State.reset (.write .w32 0x10000 0x4D6E614D)).map
        (fun t => [t.readReply .w8 0x10000, t.readReply .w8 0x10003, t.readReply .w16 0x10002]) =
      some [.data .w8 0x4D, .data .w8 0x4D, .data .w16 0x4D6E] := by decide

/-- B8: writes to read-only registers. -/
theorem test_read_only_registers :
    (after finished (.write .w32 0x0C 5)).map (·.outLen) = some 4 ∧
    (after finished (.write .w32 0x04 0xFFFFFFFF)).map (·.status) = some ⟨false, true, .ok⟩ ∧
    (after finished (.write .w32 0x10 0)).map (·.build) = some Build.default := by decide

/-- B9, B10. -/
theorem test_register_reads :
    State.reset.readReply .w32 0x00 = .data .w32 0 ∧
    State.reset.readReply .w32 0x10 = .data .w32 0x00001000 ∧
    (loaded .strict []).readReply .w32 0x10 = .data .w32 0x00011000 := by decide

/-- The values of `STATUS` in the notation of 95_test_vectors.md: the codes of R19. -/
theorem test_status_codes :
    [.ok, .invalidLength, .notAscii, .invalidAlphabet, .unexpectedPadding, .badCommand, .capacity].map
        (fun e => (failed e).readReply .w32 0x04) =
      [.data .w32 0x02, .data .w32 0x12, .data .w32 0x22, .data .w32 0x32, .data .w32 0x42,
        .data .w32 0x52, .data .w32 0x62] := by decide

/-- B11. -/
theorem test_write_out_buf :
    (after finished (.write .w32 0x20000 0)).map (·.readReply .w32 0x20000) =
      some (.data .w32 0x3D3D5141) := by decide

/-- C12, C13, C14: writes while a command runs. -/
theorem test_busy_writes :
    ∀ e ∈ [commandWrite 0x00000003, .write .w32 0x08 99, .write .w8 0x10000 0xAA],
      (after (running .encode .check .truncate [0x01, 0x02, 0x03]) e).map
          (fun t => (t.status, t.inLen, t.inBuf, t.replies)) =
        some (⟨true, false, .ok⟩, 3, [(0, 0x01), (1, 0x02), (2, 0x03)], [.written]) := by decide

/-- C15, X2. -/
theorem test_busy_read_and_reset :
    (running .encode .check .truncate [0x01]).readReply .w32 0x0C = .data .w32 0 ∧
    (after (running .encode .check .truncate [0x01]) .reset).map (fun t => (t.status, t.inLen, t.eng)) =
      some (⟨false, false, .ok⟩, 0, Engine.initial) := by decide

/-- A poll that is met, and one that is not (R53). -/
theorem test_poll :
    (after finished (.poll 0x04 3 2 [])).map (·.todo) = some [] ∧
    (after (running .encode .check .truncate [0x01]) (.poll 0x04 3 2 [])).map (·.todo) =
      some [.engine, .poll 0x04 3 2 []] := by decide

/-! ### Witnesses: states and operands that meet the hypotheses of the statements -/

/-- An idle block, an encode of three bytes at its start, and a decode of `AQ==` in its group loop. -/
def idle : State := loaded .truncate [0x01, 0x02, 0x03]
def busy : State := running .encode .check .truncate [0x01, 0x02, 0x03]
def decoding : State := running .decode .groups .strict [0x41, 0x51, 0x3D, 0x3D]

/-- `s` with these moves to come. -/
def next (s : State) (es : List Event) : State := { s with todo := es }

theorem inv_finished : finished.Inv where
  legal := by decide
  errWhenDone := by decide
  busyNotDone := by decide
  noResult := by decide
  failedLength := by decide
  strictOnly := by decide
  outFits := by decide
  inForm := by decide
  outForm := by decide
  resultWritten := by decide
  running h := absurd h (by decide)

theorem inv_busy : busy.Inv where
  legal := by decide
  errWhenDone := by decide
  busyNotDone := by decide
  noResult := by decide
  failedLength := by decide
  strictOnly := by decide
  outFits := by decide
  inForm := by decide
  outForm := by decide
  resultWritten := by decide
  running _ :=
    { captured := by decide, fits := by decide, written := by decide, checking := by decide
      encoding := by decide, decoding := by decide, checked := by decide }

theorem inv_decoding : decoding.Inv where
  legal := by decide
  errWhenDone := by decide
  busyNotDone := by decide
  noResult := by decide
  failedLength := by decide
  strictOnly := by decide
  outFits := by decide
  inForm := by decide
  outForm := by decide
  resultWritten := by decide
  running _ :=
    { captured := by decide, fits := by decide, written := by decide, checking := by decide
      encoding := by decide, decoding := by decide, checked := by decide }

theorem illegal_iff (b : Build) (w : Width) (off : Offset) :
    IllegalAccess b w off ↔ accepts b w off = false := by
  rw [← Bool.not_eq_true, accepts_iff, not_not]

theorem witness_DecodeInvertsEncode :
    (∀ i ∈ [.nop, .encode, .decode, .clear, .reserved47 0x4, .reserved47 0x7, .reserved8F 0x8,
      .reserved8F 0xF], Instr.WellFormed i) ∧ decodeWord 0xFFFFFFF7 = .reserved47 0x7 := by decide

theorem witness_EveryWordHasOneMeaning :
    0x4#4 ≤ (0x00000004#32).extractLsb' 0 4 ∧ 0x4#4 ≤ (0x0000001F#32).extractLsb' 0 4 ∧
    finished.status.busy = false := by decide

theorem witness_OpcodeMapSelectsCommand :
    let op (w : Word) := w.extractLsb' 0 4
    op 0x10 = 0x0#4 ∧ op 0x11 = 0x1#4 ∧ op 0x12 = 0x2#4 ∧ op 0x13 = 0x3#4 ∧
    (0x4#4 ≤ op 0xF4 ∧ op 0xF4 ≤ 0x7#4) ∧ (0x4#4 ≤ op 0x07 ∧ op 0x07 ≤ 0x7#4) ∧
    0x8#4 ≤ op 0x08 ∧ 0x8#4 ≤ op 0x0F := by decide

theorem witness_StepRunsWrittenCommand :
    (next busy [commandWrite 1, .engine]).todo = commandWrite 1 :: [.engine] ∧
    decode (wordBytes 1) = .ok .encode ∧ decodeTableWord 32 0x8 = some (.reserved8F 0x8) := by decide

theorem witness_IdleBlockKeepsItsState : finished.status.busy = false ∧ finished.todo = [] := by decide

theorem witness_ResetAbandonsRunningCommand :
    (next busy [.reset]).todo = .reset :: [] ∧ busy.status.busy = true := by decide

theorem witness_StepKeepsInvariant :
    busy.Inv ∧ step busy = .next busy.engineStep ∧
    decoding.Inv ∧ step decoding = .next decoding.engineStep := ⟨inv_busy, rfl, inv_decoding, rfl⟩

theorem witness_ClearAcknowledgesResult : finished.status.busy = false := by decide

theorem witness_ReservedCodeReportsBadCommand :
    finished.status.busy = false ∧ 0x4#4 ≤ 0x4#4 ∧ 0x4#4 ≤ 0xF#4 ∧
    (next finished [commandWrite (commandWord 0xF 0x4)]).todo =
      commandWrite (commandWord 0xF 0x4) :: [] := by decide

/-- One line for each clause: busy; `NOP`; `CLEAR`; `ENCODE` and `DECODE` at the capacity; beyond it;
the first and the last reserved code. -/
theorem witness_CommandIssueByCode :
    ((next busy [commandWrite 3]).todo = commandWrite 3 :: [] ∧ busy.status.busy = true) ∧
    (∀ v : Word, (next idle [commandWrite v]).todo = commandWrite v :: [] ∧
      (next idle [commandWrite v]).status.busy = false) ∧
    (0x00#32).extractLsb' 0 4 = 0x0#4 ∧ (0x03#32).extractLsb' 0 4 = 0x3#4 ∧
    ((0x11#32).extractLsb' 0 4 = 0x1#4 ∧ { idle with inLen := 4096 }.inLen.toNat ≤ idle.build.inCap) ∧
    ((0x12#32).extractLsb' 0 4 = 0x2#4 ∧ { idle with inLen := 0 }.inLen.toNat ≤ idle.build.inCap) ∧
    idle.build.inCap < { idle with inLen := 4097 }.inLen.toNat ∧
    0x4#4 ≤ (0x04#32).extractLsb' 0 4 ∧ 0x4#4 ≤ (0x0F#32).extractLsb' 0 4 := by
  refine ⟨by decide, fun v => ⟨rfl, rfl⟩, ?_⟩; decide

theorem witness_CommandFrame :
    (exec .encode idle = .next (effect .encode idle)) ∧
    (exec .clear finished = .next (effect .clear finished) ∧ Instr.clear ≠ .encode ∧
      Instr.clear ≠ .decode) ∧
    exec .nop busy = .next busy := ⟨rfl, ⟨rfl, by decide, by decide⟩, rfl⟩

theorem witness_ForwardTableClosedForm :
    (25 : Sextet).toNat ≤ 25 ∧ (26 ≤ (26 : Sextet).toNat ∧ (51 : Sextet).toNat ≤ 51) ∧
    (52 ≤ (52 : Sextet).toNat ∧ (61 : Sextet).toNat ≤ 61) ∧ (62 : Sextet).toNat = 62 ∧
    (63 : Sextet).toNat = 63 := by decide

theorem witness_TablesAreInverse :
    (inv 0x41).toNat < 64 ∧ (inv 0x2F).toNat < 64 ∧ ¬ (inv 0x40).toNat < 64 := by decide

theorem witness_ValidatorAcceptsPaddingOnlyAtTheEnd :
    ((0x3D : Code) = 0x3D ∨ (0x41 : Code) = 0x3D) ∧ ((0x41 : Code) = 0x3D ∨ (0x3D : Code) = 0x3D) := by
  decide

theorem witness_EncodedLengthAndPadding :
    ([0x01, 0x02, 0x03] : List Byte).length % 3 = 0 ∧ ([0x01] : List Byte).length % 3 = 1 ∧
    ([0x01, 0x02] : List Byte).length % 3 = 2 ∧ (0x41 : Byte) ∈ encodeText [0x01] := by decide

theorem witness_EncodedGroupsInPlace :
    ([] : List Byte).length % 3 = 0 ∧ ([0x01, 0x02, 0x03] : List Byte).length % 3 = 0 := by decide

/-- Both errors of the last clause are reached, `UNEXPECTED_PADDING` under `STRICT`. -/
theorem witness_DecodeChecksInOrder :
    ([0x80] : List Byte).length % 4 ≠ 0 ∧
    (∃ b ∈ ([0x41, 0x80, 0x3D, 0x3D] : List Byte), 0x80 ≤ b.toNat) ∧
    ((∀ b ∈ ([0x41, 0x51, 0x3D, 0x41] : List Byte), b.toNat < 0x80) ∧
      decodeText .strict [0x41, 0x51, 0x3D, 0x41] = .error .unexpectedPadding) ∧
    decodeText .truncate [0x41, 0x42, 0x23, 0x41] = .error .invalidAlphabet := by decide

/-- The premises after `AQID`, with and without a group that follows, and the case of each clause: `AB#A`; `AQ=A`
under `STRICT`; `AQ==`, `AQI=` and `AQID` last. -/
theorem witness_DecodeStopsAtFirstPaddedOrBadGroup :
    (∀ post ∈ [[], ([0x41, 0x51, 0x3D, 0x3D] : List Byte)],
      ([0x41, 0x51, 0x49, 0x44] : List Byte).length % 4 = 0 ∧ post.length % 4 = 0 ∧
      (∀ b ∈ [0x41, 0x51, 0x49, 0x44] ++ [0x41, 0x42, 0x23, 0x41] ++ post, b.toNat < 0x80) ∧
      (∀ b ∈ ([0x41, 0x51, 0x49, 0x44] : List Byte), (inv (code b)).toNat < 64)) ∧
    ¬ (inv (code 0x23)).toNat < 64 ∧
    ((inv (code 0x41)).toNat < 64 ∧ (inv (code 0x51)).toNat < 64 ∧ (0x3D : Byte) = 0x3D ∧
      (0x41 : Byte) ≠ 0x3D) ∧
    ¬ (((0x3D : Byte) = 0x3D ∧ (0x3D : Byte) ≠ 0x3D) ∨
      (((0x3D : Byte) = 0x3D ∨ (0x3D : Byte) = 0x3D) ∧ ([] : List Byte) ≠ [])) ∧
    ((0x49 : Byte) ≠ 0x3D ∧ (inv (code 0x49)).toNat < 64) ∧
    ((0x44 : Byte) ≠ 0x3D ∧ (inv (code 0x44)).toNat < 64) := by decide

/-- `AQID`, then `AQ==AQID`, `AQI=` and `AQ==`. -/
theorem witness_DecodedLength :
    (decodeText .truncate [0x41, 0x51, 0x49, 0x44] = .ok [0x01, 0x02, 0x03] ∧
      padChar ∉ ([0x41, 0x51, 0x49, 0x44] : List Byte)) ∧
    (decodeText .truncate [0x41, 0x51, 0x3D, 0x3D, 0x41, 0x51, 0x49, 0x44] = .ok [0x01] ∧
      padChar ∈ ([0x41, 0x51, 0x3D, 0x3D, 0x41, 0x51, 0x49, 0x44] : List Byte)) ∧
    (decodeText .truncate [0x41, 0x51, 0x49, 0x3D] = .ok [0x01, 0x02] ∧
      padChar ∈ ([0x41, 0x51, 0x49, 0x3D] : List Byte)) ∧
    decodeText .strict [0x41, 0x51, 0x3D, 0x3D] = .ok [0x01] := by decide

/-- An input that fills the buffer, and no input. -/
theorem witness_EncodeCompletesWithEncodedText : ∀ n ∈ [(0 : Word), 3, 4096],
    let s := { idle with inLen := n }
    s.build.Legal ∧ s.status.busy = false ∧ s.todo = [] ∧ s.inLen.toNat ≤ s.build.inCap := by
  intro n hn
  fin_cases hn <;> decide

/-- And both outcomes: `AQ=A` under each policy. -/
theorem witness_DecodeCompletesWithDecodedBytes :
    (let s := { idle with inLen := 4096 };
      s.build.Legal ∧ s.status.busy = false ∧ s.todo = [] ∧ s.inLen.toNat ≤ s.build.inCap) ∧
    decodeText .truncate ((loaded .truncate [0x41, 0x51, 0x3D, 0x41]).inBytes 4) = .ok [0x01] ∧
    decodeText .strict ((loaded .strict [0x41, 0x51, 0x3D, 0x41]).inBytes 4) =
      .error .unexpectedPadding := by decide

/-- `s` is a block with the byte `01`, and `s'` the block with the text of S1 in `IN_BUF`. -/
theorem witness_RoundTripThroughTheBlock :
    let s := loaded .truncate [0x01]
    let s' := loaded .truncate [0x41, 0x51, 0x3D, 0x3D]
    (s.build.Legal ∧ s.status.busy = false ∧ s.todo = [] ∧ s.inLen.toNat ≤ s.build.inCap ∧
      4 * ((s.inLen.toNat + 2) / 3) ≤ s.build.inCap) ∧
    (s'.build = s.build ∧ s'.status.busy = false ∧ s'.todo = [] ∧ s'.inLen = finished.outLen ∧
      s'.inBytes finished.outLen.toNat = finished.outBytes finished.outLen.toNat) := by decide

theorem witness_RunningCommandCompletes :
    busy.Inv ∧ busy.status.busy = true ∧ busy.todo = [] ∧
    decoding.Inv ∧ decoding.status.busy = true ∧ decoding.todo = [] :=
  ⟨inv_busy, rfl, rfl, inv_decoding, rfl, rfl⟩

/-- Another byte at `ENG.N` itself. -/
theorem witness_EngineStaysInItsBuffers :
    busy.Inv ∧ outCap busy.build ≤ 5464 ∧
    ∀ i, i < busy.eng.n.toNat →
      { busy with inBuf := [(0, 0x01), (1, 0x02), (2, 0x03), (3, 0xFF)] }.inByte i = busy.inByte i :=
  ⟨inv_busy, by decide, by decide⟩

/-- Two engine steps of the three, a running poll, and the third step, which is the completion, after
`es`. -/
theorem witness_HostCannotDisturbRunningCommand :
    let es : List Event := [.write .w32 0x08 99, .engine, .read .w8 0x20000, .engine, commandWrite 3]
    (∀ e ∈ es, e.isAccess = true ∨ e = .engine) ∧
    (∀ j, j ≤ es.count .engine → (State.engineSteps j busy).status.busy = true) ∧
    (State.engineSteps (es.count .engine + 1) busy).status.busy = false ∧
    (next busy (es ++ [.reset])).todo = es ++ [.reset] ∧
    (next busy (es ++ .engine :: [.reset])).todo = es ++ .engine :: [.reset] ∧
    (next busy [.poll 0x04 3 2 []]).status.busy = true ∧
    (∀ rest, (next busy [.poll 0x04 3 2 []]).todo ≠ .reset :: rest) := by
  refine ⟨by decide, by decide, by decide, rfl, rfl, rfl, fun rest h => ?_⟩
  cases h

theorem witness_HostCannotDisturbRunningCommand_step :
    step (next busy [.poll 0x04 3 2 []]) = .next (busy.pollRead 0x04 3 2 []) ∧ busy.Inv :=
  ⟨rfl, inv_busy⟩

theorem witness_RegisterReads :
    ∀ e ∈ [ErrCode.ok, .invalidLength, .notAscii, .invalidAlphabet, .unexpectedPadding, .badCommand,
      .capacity], (failed e).status.err = e := by decide

theorem witness_CapsReportsTheBuild :
    Build.Legal ⟨1, .truncate⟩ ∧ Build.Legal ⟨49152, .strict⟩ ∧ step finished = .next finished :=
  ⟨by decide, by decide, rfl⟩

theorem witness_InLenHoldsTheLastValueWritten :
    (∀ s ∈ [finished, busy], (next s [.write .w32 0x08 4097]).todo = .write .w32 0x08 4097 :: []) ∧
    finished.status.busy = false ∧ finished.build.inCap < (4097 : Word).toNat ∧
    busy.status.busy = true := by decide

/-- The issue; the end by reset and by the engine's last step. -/
theorem witness_BusyChangesOnlyAtIssueCompletionReset :
    (∃ t, step (next idle [commandWrite 1]) = .next t ∧ t.status.busy = true) ∧
    (∃ t, step (next busy [.reset]) = .next t ∧ t.status.busy = false) ∧
    (∃ t, step decoding = .next t ∧ decoding.status.done = false ∧ t.status.done = true) :=
  ⟨⟨_, rfl, by decide⟩, ⟨_, rfl, by decide⟩, ⟨_, rfl, by decide, by decide⟩⟩

/-- Cleared by reset and by `CLEAR`; set by the engine's last step, a reserved code, and beyond capacity. -/
theorem witness_DoneChangesOnlyAtIssueCompletionReset :
    (∃ t, step (next finished [.reset]) = .next t ∧ finished.status.done = true ∧ t.status.done = false) ∧
    (∃ t, step (next finished [commandWrite 3]) = .next t ∧ t.status.done = false) ∧
    (∃ t, step decoding = .next t ∧ decoding.status.done = false ∧ t.status.done = true) ∧
    (∃ t, step (next idle [commandWrite 4]) = .next t ∧ idle.status.done = false ∧
      t.status.done = true) ∧
    (∃ t, step (next { idle with inLen := 4097 } [commandWrite 1]) = .next t ∧ t.status.done = true) :=
  ⟨⟨_, rfl, by decide, by decide⟩, ⟨_, rfl, by decide⟩, ⟨_, rfl, by decide, by decide⟩,
    ⟨_, rfl, by decide, by decide⟩, ⟨_, rfl, by decide⟩⟩

theorem witness_InputsChangeOnlyByIdleWritesOrReset :
    (∃ t, step (next idle [.write .w32 0x08 9]) = .next t ∧ t.inLen ≠ idle.inLen) ∧
    (∃ t, step (next idle [.write .w8 0x10FFF 9]) = .next t ∧ t.inBuf ≠ idle.inBuf) ∧
    (∃ t, step (next busy [.reset]) = .next t ∧ t.inLen ≠ busy.inLen ∧ t.inBuf ≠ busy.inBuf) :=
  ⟨⟨_, rfl, by decide⟩, ⟨_, rfl, by decide⟩, ⟨_, rfl, by decide, by decide⟩⟩

/-- Legal and illegal accesses on both sides of the boundaries of R31 and R33. -/
theorem witness_BusErrorExactlyOnIllegalAccess :
    (next busy [.read .w32 0x14]).todo = .read .w32 0x14 :: [] ∧
    (next busy [.write .w8 0x00 1]).todo = .write .w8 0x00 1 :: [] ∧
    (∀ a ∈ [(Width.w8, (0x13 : Offset)), (.w32, 0x14), (.w8, 0xFF), (.w8, 0x140), (.w8, 0x17F), (.w8, 0x200),
      (.w8, 0xFFFF), (.w32, 0x10002), (.w8, 0x11000), (.w32, 0x21558), (.w8, 0x30000), (.w8, 0x3FFFF)],
      IllegalAccess Build.default a.1 a.2) ∧
    (∀ a ∈ [(Width.w32, (0x10 : Offset)), (.w8, 0x100), (.w8, 0x13F), (.w8, 0x180), (.w8, 0x1FF),
      (.w8, 0x10000), (.w32, 0x10FFC), (.w32, 0x21554)],
      ¬ IllegalAccess Build.default a.1 a.2) := by
  simp only [illegal_iff]; decide

theorem witness_ReadsHaveNoSideEffect :
    (∀ e ∈ [Event.read .w8 0x20000], ∃ w' off', e = .read w' off') ∧
    (∀ s ∈ [finished, busy],
      (next s (.read .w32 0x10000 :: [.read .w8 0x20000] ++ .read .w32 0x10000 :: [])).todo =
        .read .w32 0x10000 :: [.read .w8 0x20000] ++ .read .w32 0x10000 :: []) ∧
    finished.status.busy = false ∧ (0x1FFFC : Offset).toNat < 0x20000 := by
  refine ⟨fun e he => ⟨.w8, 0x20000, by simpa using he⟩, ?_⟩; decide

theorem witness_OnlyCommandWritesHaveSideEffects :
    (next finished [.write .w8 0x10000 9]).todo = .write .w8 0x10000 9 :: [] ∧
    (0x10000 : Offset) ≠ 0 ∧ (0x10000 : Offset) ≠ 0x08 ∧
    0x10000 + 1 ≤ 0x10000 + 1 ∧ (0x0C : Offset).toNat < 0x10000 ∧ 0x20000 ≤ (0x20000 : Offset).toNat := by
  decide

theorem witness_WritesToReadOnlyPlacesIgnored :
    (next finished [.write .w32 0x04 9]).todo = .write .w32 0x04 9 :: [] ∧
    (∀ off ∈ [(0x04 : Offset), 0x0C, 0x10, 0x100, 0x13C, 0x1FC, 0x20000, 0x21554],
      ¬ IllegalAccess finished.build .w32 off ∧
      (off = 0x04 ∨ off = 0x0C ∨ off = 0x10 ∨ (0x100 ≤ off.toNat ∧ off.toNat ≤ 0x1FF) ∨
        0x20000 ≤ off.toNat)) := by
  simp only [illegal_iff]
  refine ⟨rfl, fun off h => ?_⟩
  fin_cases h <;> decide

theorem witness_InBufWritesStoreTheirBytes :
    4095 < finished.build.inCap ∧
    (∀ s ∈ [finished, busy], ∀ off ∈ [(0x10000 : Offset), 0x10FFC],
      s.build.Legal ∧ 0x10000 ≤ off.toNat ∧ off.toNat ≤ 0x1FFFF ∧ ¬ IllegalAccess s.build .w32 off ∧
      (next s [.write .w32 off 9]).todo = .write .w32 off 9 :: []) ∧
    finished.status.busy = false ∧ busy.status.busy = true := by
  simp only [illegal_iff]
  refine ⟨by decide, fun s hs off h => ?_, by decide⟩
  fin_cases hs <;> fin_cases h <;> decide

theorem witness_WideReadsAreLittleEndian : ∀ off ∈ [(0x100 : Offset), 0x13C, 0x180, 0x1FC, 0x10000, 0x21554],
    0x100 ≤ off.toNat ∧ ¬ IllegalAccess finished.build .w16 off ∧
      ¬ IllegalAccess finished.build .w32 off := by
  simp only [illegal_iff]
  intro off h
  fin_cases h <;> decide

theorem witness_TableWindowsShowTheTables :
    (60 : Sextet).toNat % 4 = 0 ∧ (124 : Code).toNat % 4 = 0 ∧ (62 : Sextet).toNat % 2 = 0 ∧
    (126 : Code).toNat % 2 = 0 ∧
    (next busy [.write .w8 0x1FF 0]).todo = .write .w8 0x1FF 0 :: [] ∧
    0x100 ≤ (0x100 : Offset).toNat ∧ (0x1FF : Offset).toNat ≤ 0x1FF := by decide

theorem witness_ResultBytesReadBack :
    finished.status.busy = false ∧ finished.outLen.toNat ≤ outCap finished.build ∧ finished.build.Legal ∧
    3 < finished.outLen.toNat := by decide

theorem witness_WritesWhileBusyAreIgnored : ∀ off ∈ [(0x00 : Offset), 0x08, 0x10000, 0x10FFC],
    (next busy [.write .w32 off 9]).todo = .write .w32 off 9 :: [] ∧ busy.status.busy = true ∧
    ¬ IllegalAccess busy.build .w32 off ∧
    (off = 0x00 ∨ off = 0x08 ∨ (0x10000 ≤ off.toNat ∧ off.toNat ≤ 0x1FFFF)) := by
  simp only [illegal_iff]
  intro off h
  fin_cases h <;> decide

theorem witness_RunningCommandShowsOnlyBusy :
    busy.Inv ∧ busy.status.busy = true ∧ decoding.Inv ∧ decoding.status.busy = true :=
  ⟨inv_busy, rfl, inv_decoding, rfl⟩

/-- Met at a finished command, not met at a running one. -/
theorem witness_PollRepeatsUntilItsConditionHolds :
    (next finished [.poll 0x04 3 2 [0, 2]]).todo = .poll 0x04 3 2 [0, 2] :: [] ∧
    (finished.readReply .w32 0x04 = .data .w32 0x02 ∧ (0x02 : Word) &&& 3 = 2) ∧
    (busy.readReply .w32 0x04 = .data .w32 0x01 ∧ (0x01 : Word) &&& 3 ≠ 2) := by decide

/-- `WAITDONE` at any pace. -/
theorem witness_WaitDoneEndsAtCompletion (pace : List Nat) :
    let s := next busy [.poll 0x04 0x00000003 0x00000002 pace]
    s.Inv ∧ s.status.busy = true ∧ s.todo = [.poll 0x04 0x00000003 0x00000002 pace] :=
  ⟨{ inv_busy with running := fun h => { inv_busy.running h with } }, rfl, rfl⟩

end Sys2Proof.Tests.Slice0
end

section
/-! The engine's step as a function of the bytes it reads. What surrounds the engine is the input
buffer, the moves to come, the responses and the draws; `State.within` exchanges these, and a step
commutes with the exchange when the bytes below `ENG.N` stay the same (R35, R42). -/

namespace Sys2Proof.Machine

/-- The registers, the output buffer and the engine of `s`, in the surroundings of `u`. -/
def State.within (s u : State) : State :=
  { u with
    build := s.build, status := s.status, inLen := s.inLen, outLen := s.outLen
    outBuf := s.outBuf, eng := s.eng }

namespace State

variable {s t u : State}

@[simp] theorem within_build (s u : State) : (s.within u).build = s.build := rfl
@[simp] theorem within_eng (s u : State) : (s.within u).eng = s.eng := rfl
@[simp] theorem within_inByte (s u : State) (i : Nat) : (s.within u).inByte i = u.inByte i := rfl

theorem SameBlock.eq_within (h : s.SameBlock t) : t = s.within t := by
  simp only [within, ← h.build, ← h.status, ← h.inLen, ← h.outLen, ← h.outBuf, ← h.eng]

/-- The engine finds the same input in both surroundings. -/
def SameInput (s u : State) : Prop := ∀ i, i < s.eng.n.toNat → u.inByte i = s.inByte i

theorem encodeGroup_within (h : s.SameInput u) :
    (s.within u).encodeGroup = s.encodeGroup.within u := by
  have heng := within_eng s u
  simp only [encodeGroup, within_inByte, heng]
  split
  · rw [h _ (by omega), h _ (by omega), h _ (by omega)]; rfl
  · split
    · rw [h _ (by omega)]; rfl
    · split
      · rw [h _ (by omega), h _ (by omega)]; rfl
      · rfl

theorem SameInput.inBytes (h : s.SameInput u) :
    (s.within u).inBytes s.eng.n.toNat = s.inBytes s.eng.n.toNat :=
  List.map_congr_left fun i hi => h i (List.mem_range.1 hi)

theorem decodeCheck_within (h : s.SameInput u) :
    (s.within u).decodeCheck = s.decodeCheck.within u := by
  have heng := within_eng s u
  simp only [decodeCheck, heng, h.inBytes]
  split
  · rfl
  · split <;> rfl

theorem decodeGroup_within (h : s.SameInput u) :
    (s.within u).decodeGroup = s.decodeGroup.within u := by
  have heng := within_eng s u
  have hbuild := within_build s u
  simp only [decodeGroup, within_inByte, heng, hbuild]
  split
  · rfl
  · rw [h _ (by omega), h _ (by omega), h _ (by omega), h _ (by omega)]
    split <;> rfl

theorem runningStep_within (h : s.SameInput u) :
    (s.within u).runningStep = s.runningStep.within u := by
  have heng := within_eng s u
  simp only [runningStep, heng]
  split
  · rfl
  · exact encodeGroup_within h
  · exact decodeCheck_within h
  · exact decodeGroup_within h

/-- A pass of the engine draws nothing: it commutes with the exchange of `s` for itself. -/
theorem runningStep_fresh (s : State) : s.runningStep.fresh = s.fresh := by
  have h : s.runningStep = s.runningStep.within s := runningStep_within fun _ _ => rfl
  rw [h]; rfl

theorem engineStep_fresh (s : State) : s.engineStep.fresh = s.fresh + s.status.busy.toNat := by
  cases hb : s.status.busy
  · rw [engineStep_idle hb]; rfl
  · rw [engineStep_busy hb, draw_fresh, runningStep_fresh]; rfl

/-- An engine step is the same in all surroundings with the same input, but for the draw. -/
theorem engineStep_within (h : s.SameInput u) :
    (s.within u).engineStep =
      { s.engineStep.within u with fresh := u.fresh + s.status.busy.toNat } := by
  cases hb : s.status.busy
  · rw [engineStep_idle hb, engineStep_idle (s := s.within u) hb]; rfl
  · rw [engineStep_busy hb, engineStep_busy (s := s.within u) hb, runningStep_within h]; rfl

theorem SameBlock.engineStep (h : s.SameBlock t) : s.engineStep.SameBlock t.engineStep := by
  obtain ⟨-, -, hin, hera, -, -⟩ := s.engineStep_frame
  rw [h.eq_within, engineStep_within fun i _ => h.inByte i]
  exact ⟨rfl, rfl, rfl, rfl, h.inBuf.trans hin.symm, rfl, rfl, h.era.trans hera.symm⟩

/-- Bytes of `IN_BUF` at or beyond `ENG.N` do not matter to an engine step. -/
theorem engineStep_inBuf (s : State) (m : Memory)
    (h : ∀ i, i < s.eng.n.toNat → { s with inBuf := m }.inByte i = s.inByte i) :
    { s with inBuf := m }.engineStep = { s.engineStep with inBuf := m } := by
  obtain ⟨-, -, -, hera, htodo, hreplies⟩ := s.engineStep_frame
  calc { s with inBuf := m }.engineStep
      = { s.engineStep.within { s with inBuf := m } with
          fresh := s.fresh + s.status.busy.toNat } := engineStep_within h
    _ = { s.engineStep with inBuf := m } := by
      simp only [within, engineStep_fresh, hera, htodo, hreplies]

end State

end Sys2Proof.Machine
end

section
/-! What one step can do to the block, said once for all moves. -/

namespace Sys2Proof.Machine

namespace State

variable {s t : State}

theorem SameBlock.resetBlock (h : s.SameBlock t) : s.resetBlock.SameBlock t.resetBlock :=
  ⟨h.build, rfl, rfl, rfl, rfl, rfl, rfl, congrArg (· + 1) h.era⟩

theorem SameBlock.startEngine (h : s.SameBlock t) (op : EngOp) :
    (s.startEngine op).SameBlock (t.startEngine op) := by
  rw [h.eq_within]
  rcases Nat.lt_or_ge s.build.inCap s.inLen.toNat with hc | hc
  · rw [startEngine_beyond op hc, startEngine_beyond (s := s.within t) op hc]
    exact ⟨rfl, rfl, rfl, rfl, h.inBuf, rfl, rfl, h.era⟩
  · rw [startEngine_fits op hc, startEngine_fits (s := s.within t) op hc]
    exact ⟨rfl, rfl, rfl, rfl, h.inBuf, rfl, rfl, h.era⟩

theorem SameBlock.begin (h : s.SameBlock t) : s.begin.SameBlock t.begin := by
  rw [h.eq_within]; exact ⟨rfl, rfl, rfl, rfl, h.inBuf, rfl, rfl, h.era⟩

theorem SameBlock.effect (h : s.SameBlock t) (i : Instr) :
    (effect i s).SameBlock (effect i t) := by
  cases i with
  | nop => exact h
  | encode => exact h.startEngine .encode
  | decode => exact h.startEngine .decode
  | clear => exact h.begin
  | reserved47 _ => exact ⟨h.build, rfl, h.inLen, rfl, h.inBuf, h.outBuf, h.eng, h.era⟩
  | reserved8F _ => exact ⟨h.build, rfl, h.inLen, rfl, h.inBuf, h.outBuf, h.eng, h.era⟩

theorem SameBlock.setInLen (h : s.SameBlock t) (v : Word) :
    { s with inLen := v }.SameBlock { t with inLen := v } :=
  { h with inLen := rfl }

theorem SameBlock.writeInBuf (h : s.SameBlock t) (i : Nat) (bs : List Byte) :
    { s with inBuf := s.inBuf.writeSeq i bs }.SameBlock { t with inBuf := t.inBuf.writeSeq i bs } :=
  { h with inBuf := congrArg (Memory.writeSeq · i bs) h.inBuf }

/-- The state in which a write takes effect has the block of the state before the step. -/
theorem sameBlock_written (s : State) (rest : List Event) (r : Reply) :
    s.SameBlock ({ s with todo := rest }.afterWrite r) :=
  (s.sameBlock_todo rest).trans (State.sameBlock_afterWrite _ _)

end State

/-- What a step from `s` to `t` does to the block, by the move that does it. -/
inductive StepEffect (s t : State) : Prop
  /-- A read, a poll, a refused write, a write to a read-only place, a write while busy. -/
  | keeps (h : s.SameBlock t)
  | engine (hm : s.todo = [] ∨ ∃ rest, s.todo = .engine :: rest) (h : s.engineStep.SameBlock t)
  | reset (rest : List Event) (hm : s.todo = .reset :: rest) (h : s.resetBlock.SameBlock t)
  /-- The issue of a command. -/
  | command (hidle : s.status.busy = false) (v : Word) (rest : List Event)
      (hm : s.todo = commandWrite v :: rest) (h : (effect (decodeWord v) s).SameBlock t)
  /-- A write to `IN_LEN`. -/
  | inLen (hidle : s.status.busy = false) (v : Word) (rest : List Event)
      (hm : s.todo = .write .w32 0x08 v :: rest) (h : { s with inLen := v }.SameBlock t)
  /-- A write to `IN_BUF`, whole below its capacity. -/
  | inBuf (hidle : s.status.busy = false) (w : Width) (off : Offset) (v : Word) (rest : List Event)
      (hm : s.todo = .write w off v :: rest)
      (hlo : inBase ≤ off.toNat) (hhi : off.toNat + w.bytes ≤ inBase + s.build.inCap)
      (h : { s with inBuf := s.inBuf.writeSeq (off.toNat - inBase) (writtenBytes w v) }.SameBlock t)

/-- A step that writes the word `v` to `CMD` issues its command, or ignores it while busy. -/
theorem step_of_commandWrite {s : State} {v : Word} {rest : List Event}
    (h : s.todo = commandWrite v :: rest) :
    step s = exec (decodeWord v) ({ s with todo := rest }.afterWrite .written) := by
  rw [step_of_todo h]
  simp only [commandWrite, State.perform, State.busWrite, accepts_cmd, if_true]; rfl

/-- The effect of a command's issue on the block. -/
theorem sameBlock_effect_of_step {s t : State} {v : Word} {rest : List Event}
    (hm : s.todo = commandWrite v :: rest) (hidle : s.status.busy = false) (h : step s = .next t) :
    (effect (decodeWord v) s).SameBlock t := by
  have hb : ({ s with todo := rest }.afterWrite .written).status.busy = false := hidle
  rw [step_of_commandWrite hm, exec_eq, hb] at h
  cases h
  exact (s.sameBlock_written rest .written).effect _

/-- A write accepted in `IN_BUF` lies whole below its capacity (R33). -/
theorem accepts_inBuf {b : Build} {w : Width} {off : Offset} (ha : accepts b w off = true)
    (hr : region off.toNat = .inBuf) :
    inBase ≤ off.toNat ∧ off.toNat + w.bytes ≤ inBase + b.inCap := by
  simp only [accepts, regionAccepts, hr, Bool.and_eq_true, decide_eq_true_eq] at ha
  exact ⟨(region_eq_inBuf.1 hr).1, ha.2⟩

/-- A write to `IN_LEN` is always accepted. -/
theorem step_of_inLenWrite {s : State} {v : Word} {rest : List Event}
    (h : s.todo = .write .w32 0x08 v :: rest) :
    step s = .next (({ s with todo := rest }.afterWrite .written).writeInLen v) := by
  rw [step_of_todo h]; rfl

/-- An access ignored while busy keeps the block or has its effect on an idle one. -/
theorem State.sameBlock_unlessBusy {s t s' t' : State} (hst : s.SameBlock t)
    (heff : s'.SameBlock t') :
    s.SameBlock (if t.status.busy then t else t') ∨
      (s.status.busy = false ∧ s'.SameBlock (if t.status.busy then t else t')) := by
  rw [hst.status]
  cases s.status.busy
  · exact .inr ⟨rfl, heff⟩
  · exact .inl hst

/-- A write is one of the effects of a step. -/
theorem stepEffect_of_write {s t : State} {w : Width} {off : Offset} {v : Word} {rest : List Event}
    (hm : s.todo = .write w off v :: rest)
    (h : { s with todo := rest }.busWrite w off v = .next t) : StepEffect s t := by
  have hsame := s.sameBlock_written rest
  rcases State.busWrite_cases { s with todo := rest } w off v with
    ⟨-, hw⟩ | ⟨ha, ⟨rfl, rfl, hw⟩ | ⟨rfl, rfl, hw⟩ | ⟨hr, hw⟩ | ⟨-, hw⟩⟩
  · rw [hw] at h; cases h
    exact .keeps (hsame _)
  · rw [hw, exec_eq] at h; cases h
    rcases State.sameBlock_unlessBusy (hsame .written) ((hsame .written).effect (decodeWord v)) with
      hk | ⟨hidle, he⟩
    · exact .keeps hk
    · exact .command hidle v rest hm he
  · rw [hw] at h; cases h
    rcases State.sameBlock_unlessBusy (hsame .written) ((hsame .written).setInLen v) with
      hk | ⟨hidle, he⟩
    · exact .keeps hk
    · exact .inLen hidle v rest hm he
  · rw [hw] at h; cases h
    rcases State.sameBlock_unlessBusy (hsame .written) ((hsame .written).writeInBuf _ _) with
      hk | ⟨hidle, he⟩
    · exact .keeps hk
    · obtain ⟨hlo, hhi⟩ := accepts_inBuf ha hr
      exact .inBuf hidle w off v rest hm hlo hhi he
  · rw [hw] at h; cases h
    exact .keeps (hsame _)

/-- Everything a step can do to the block. -/
theorem stepEffect_of_step {s t : State} (h : step s = .next t) : StepEffect s t := by
  rcases step_cases s with ⟨hnil, hstep⟩ | ⟨e, rest, hm, hstep⟩
  · rw [hstep] at h; cases h
    exact .engine (.inl hnil) (State.SameBlock.refl _)
  · rw [hstep] at h
    have hsame := s.sameBlock_todo rest
    cases e with
    | read w off => cases h; exact .keeps (hsame.trans (State.sameBlock_busRead _ w off))
    | write w off v => exact stepEffect_of_write hm h
    | poll off mask v pace =>
      cases h; exact .keeps (hsame.trans (State.sameBlock_pollRead _ off mask v pace))
    | engine => cases h; exact .engine (.inr ⟨rest, hm⟩) hsame.engineStep
    | reset => cases h; exact .reset rest hm hsame.resetBlock

end Sys2Proof.Machine
end

section
/-! The invariant, one lemma for each effect of a step. A state without a result is one case; a
completion is the other. -/

namespace Sys2Proof.Machine

/-- The indexes below `a` and those of the bytes written from `a` on hold written bytes. -/
theorem Memory.isSome_writeSeq {m : Memory} {a : Nat} (bs : List Byte)
    (h : ∀ i, i < a → (m.read? i).isSome = true) :
    ∀ i, i < a + bs.length → ((m.writeSeq a bs).read? i).isSome = true := by
  intro i hi
  rcases Nat.lt_or_ge i a with hlt | hge
  · rw [Memory.read?_writeSeq_other _ _ (.inl hlt)]; exact h i hlt
  · obtain ⟨k, rfl⟩ := Nat.exists_eq_add_of_le hge
    rw [Memory.read?_writeSeq _ _ _ _ (by omega)]; rfl

namespace State

variable {s : State}

/-- The part of the invariant that speaks of no result and no running command: a legal build and
both buffers in form. -/
structure Stored (s : State) : Prop where
  legal : s.build.Legal
  inForm : s.inBuf.wf = true ∧ s.inBuf.below s.build.inCap = true
  outForm : s.outBuf.wf = true ∧ s.outBuf.below (outCap s.build) = true

theorem Inv.stored (hi : s.Inv) : s.Stored := ⟨hi.legal, hi.inForm, hi.outForm⟩

theorem Stored.emit (hs : s.Stored) {i : Nat} {bs : List Byte}
    (hfit : i + bs.length ≤ outCap s.build) : (s.emit i bs).Stored where
  legal := hs.legal
  inForm := hs.inForm
  outForm := ⟨Memory.wf_writeSeq _ _ _ hs.outForm.1, Memory.below_writeSeq _ _ hs.outForm.2 hfit⟩

/-- A block without a result meets the invariant when its running command does. -/
theorem Stored.inv_of_noResult (hs : s.Stored) (hdone : s.status.done = false)
    (herr : s.status.err = .ok) (hlen : s.outLen = 0) (hrun : s.status.busy = true → s.Running) :
    s.Inv where
  legal := hs.legal
  errWhenDone _ := herr
  busyNotDone _ := hdone
  noResult _ := hlen
  failedLength _ := hlen
  strictOnly h := by rw [herr] at h; cases h
  outFits := by simp [hlen]
  inForm := hs.inForm
  outForm := hs.outForm
  resultWritten := by simp [hlen]
  running := hrun

/-- A successful completion keeps the invariant when its result fits and has been written. -/
theorem Stored.inv_complete_ok (hs : s.Stored) {len : Word} (hfit : len.toNat ≤ outCap s.build)
    (hwritten : ∀ i, i < len.toNat → (s.outBuf.read? i).isSome = true) :
    (s.complete .ok len).Inv where
  legal := hs.legal
  errWhenDone h := by cases h
  busyNotDone h := by cases h
  noResult h := by cases h
  failedLength h := absurd rfl h
  strictOnly h := by cases h
  outFits := hfit
  inForm := hs.inForm
  outForm := hs.outForm
  resultWritten := hwritten
  running h := by cases h

/-- A failed completion leaves no result. -/
theorem Stored.inv_complete_failed (hs : s.Stored) {e : ErrCode}
    (hstrict : e = .unexpectedPadding → s.build.padPolicy = .strict) : (s.complete e 0).Inv where
  legal := hs.legal
  errWhenDone h := by cases h
  busyNotDone h := by cases h
  noResult h := by cases h
  failedLength _ := rfl
  strictOnly := hstrict
  outFits := by simp
  inForm := hs.inForm
  outForm := hs.outForm
  resultWritten := by simp
  running h := by cases h

/-! ### The engine -/

/-- A busy block after a pass that is no completion: only the engine and `OUT_BUF` have changed. -/
theorem Inv.of_goesOn {t : State} (hi : s.Inv) (hb : s.status.busy = true) (hs : t.Stored)
    (hstatus : t.status = s.status) (hlen : t.outLen = s.outLen) (hrun : t.Running) : t.Inv := by
  have hdone := hi.busyNotDone hb
  refine hs.inv_of_noResult ?_ ?_ ?_ fun _ => hrun
  · rw [hstatus]; exact hdone
  · rw [hstatus]; exact hi.errWhenDone hdone
  · rw [hlen]; exact hi.noResult hdone

/-- The phase `CHECK` leads to the group loop: always in an encode, and in a decode on whole groups
of ASCII bytes. -/
theorem Inv.enterGroups (hi : s.Inv) (hb : s.status.busy = true)
    (hchecked : s.eng.op = .decode → s.eng.n.toNat % 4 = 0 ∧
      ∀ i, i < s.eng.n.toNat → (s.inByte i).toNat < 0x80) :
    { s with eng := { s.eng with phase := .groups } }.Inv :=
  hi.of_goesOn hb ⟨hi.legal, hi.inForm, hi.outForm⟩ rfl rfl
    { hi.running hb with
      checking := fun h => by cases h
      checked := fun hop _ => hchecked hop }

/-- Within the output buffer `ENG.W` counts the bytes emitted without overflow. -/
theorem Stored.emit_count (hs : s.Stored) {bs : List Byte}
    (hfit : s.eng.w.toNat + bs.length ≤ outCap s.build) :
    (s.eng.w + BitVec.ofNat 32 bs.length).toNat = s.eng.w.toNat + bs.length := by
  have hcap := hs.legal.2
  simp only [outCap] at hfit
  simp only [BitVec.toNat_add, BitVec.toNat_ofNat]; omega

/-- A whole group that is not the last: its bytes are emitted and `ENG.G` counts it. -/
theorem Inv.emit_nextGroup (hi : s.Inv) (hb : s.status.busy = true)
    (hphase : s.eng.phase = .groups) {bs : List Byte}
    (hfit : s.eng.w.toNat + bs.length ≤ outCap s.build)
    (henc : s.eng.op = .encode → bs.length = 4 ∧ 3 * s.eng.g.toNat + 3 ≤ s.eng.n.toNat)
    (hdec : s.eng.op = .decode → bs.length = 3 ∧ 4 * s.eng.g.toNat + 4 ≤ s.eng.n.toNat) :
    { s.emit s.eng.w.toNat bs with
      eng := { (s.emit s.eng.w.toNat bs).eng with g := s.eng.g + 1 } }.Inv := by
  have hr := hi.running hb
  have hfits := hr.fits
  have hcap := hi.legal.2
  have hw := hi.stored.emit_count hfit
  have hg : 3 * s.eng.g.toNat + 3 ≤ s.eng.n.toNat → (s.eng.g + 1).toNat = s.eng.g.toNat + 1 := by
    have hone : (1 : Word).toNat = 1 := rfl
    intro hn; rw [BitVec.toNat_add, hone]; omega
  obtain ⟨hlegal, hin, hout⟩ := hi.stored.emit hfit
  refine hi.of_goesOn hb ⟨hlegal, hin, hout⟩ rfl rfl
    { captured := hr.captured, fits := hfits, written := ?_, checking := ?_, encoding := fun hop => ?_
      decoding := fun hop => ?_, checked := hr.checked }
  · simp only [emit_eng, emit_outBuf, hw]; exact Memory.isSome_writeSeq bs hr.written
  · simp [hphase]
  · obtain ⟨hlen, hn⟩ := henc hop
    have hdone := hr.encoding hop
    simp only [emit_eng, hw, hg hn]; omega
  · obtain ⟨hlen, hn⟩ := hdec hop
    have hdone := hr.decoding hop
    simp only [emit_eng, hw, hg (by omega)]; omega

/-- A last group: its bytes are emitted, and the result is everything emitted. -/
theorem Inv.emit_complete (hi : s.Inv) (hb : s.status.busy = true) {bs : List Byte} {len : Word}
    (hfit : s.eng.w.toNat + bs.length ≤ outCap s.build)
    (hlen : len.toNat = s.eng.w.toNat + bs.length) :
    ((s.emit s.eng.w.toNat bs).complete .ok len).Inv := by
  refine (hi.stored.emit hfit).inv_complete_ok (hlen ▸ hfit) ?_
  rw [hlen]; exact Memory.isSome_writeSeq bs (hi.running hb).written

theorem inv_encodeGroup (hi : s.Inv) (hb : s.status.busy = true) (hop : s.eng.op = .encode)
    (hphase : s.eng.phase = .groups) : s.encodeGroup.Inv := by
  have hr := hi.running hb
  obtain ⟨hw, hg⟩ := hr.encoding hop
  have hfits := hr.fits
  have hcap := hi.legal.2
  have hlen : (BitVec.ofNat 32 (encodedLength s.eng.n.toNat)).toNat =
      4 * ((s.eng.n.toNat + 2) / 3) := by
    simp only [encodedLength, BitVec.toNat_ofNat]; omega
  rcases s.encodeGroup_cases with ⟨hn, bs, hbs, heq⟩ | ⟨hn, bs, hbs, heq⟩ | ⟨hn, heq⟩
  · rw [heq, ← hw]
    refine hi.emit_nextGroup hb hphase ?_ (fun _ => ⟨hbs, hn⟩) fun h => by rw [hop] at h; cases h
    simp only [outCap]; omega
  · rw [heq, ← hw]
    refine hi.emit_complete hb ?_ ?_
    · simp only [outCap]; omega
    · rw [hlen]; omega
  · rw [heq]
    refine hi.stored.inv_complete_ok ?_ fun i h => hr.written i ?_
    · simp only [hlen, outCap]; omega
    · rw [hlen] at h; omega

theorem inv_decodeCheck (hi : s.Inv) (hb : s.status.busy = true) : s.decodeCheck.Inv := by
  rcases s.decodeCheck_cases with ⟨-, heq⟩ | ⟨-, -, heq⟩ | ⟨hmod, hascii, heq⟩ <;> rw [heq]
  · exact hi.stored.inv_complete_failed fun h => by cases h
  · exact hi.stored.inv_complete_failed fun h => by cases h
  · exact hi.enterGroups hb fun _ => ⟨hmod, hascii⟩

theorem inv_decodeGroup (hi : s.Inv) (hb : s.status.busy = true) (hop : s.eng.op = .decode)
    (hphase : s.eng.phase = .groups) : s.decodeGroup.Inv := by
  have hr := hi.running hb
  obtain ⟨hw, hg⟩ := hr.decoding hop
  have hfits := hr.fits
  have hfit : ∀ ys : List Byte, s.eng.g.toNat < s.eng.n.toNat / 4 → ys.length ≤ 3 →
      s.eng.w.toNat + ys.length ≤ outCap s.build := by
    intro ys hn hys; simp only [outCap]; omega
  rcases s.decodeGroup_cases with ⟨-, heq⟩ | ⟨hn, ⟨e, he, heq⟩ | ⟨ys, hys, heq⟩ | ⟨ys, hys, heq⟩⟩ <;>
    rw [heq]
  · refine hi.stored.inv_complete_ok ?_ hr.written
    simp only [outCap]; omega
  · refine hi.stored.inv_complete_failed fun hpad => ?_
    rcases he with rfl | ⟨-, hstrict⟩
    · cases hpad
    · exact hstrict
  · have hfits' := hfit ys hn (by omega)
    exact hi.emit_complete hb hfits' (hi.stored.emit_count hfits')
  · refine hi.emit_nextGroup hb hphase (hfit ys hn (by omega)) (fun h => ?_) fun _ => ⟨hys, by omega⟩
    rw [hop] at h; cases h

theorem Inv.engineStep (hi : s.Inv) : s.engineStep.Inv := by
  cases hb : s.status.busy
  · rwa [engineStep_idle hb]
  · rw [engineStep_busy hb]
    refine (sameBlock_draw _).inv ?_
    rcases s.runningStep_cases with ⟨hop, -, heq⟩ | ⟨hop, hp, heq⟩ | ⟨-, -, heq⟩ | ⟨hop, hp, heq⟩ <;>
      rw [heq]
    · exact hi.enterGroups hb fun h => by rw [hop] at h; cases h
    · exact inv_encodeGroup hi hb hop hp
    · exact inv_decodeCheck hi hb
    · exact inv_decodeGroup hi hb hop hp

/-! ### The other moves -/

theorem inv_reset : State.reset.Inv :=
  Stored.inv_of_noResult ⟨by decide, by decide, by decide⟩ rfl rfl rfl fun h => by cases h

theorem Inv.resetBlock (hi : s.Inv) : s.resetBlock.Inv :=
  Stored.inv_of_noResult ⟨hi.legal, ⟨rfl, rfl⟩, ⟨rfl, rfl⟩⟩ rfl rfl rfl fun h => by cases h

theorem Inv.startEngine (hi : s.Inv) (op : EngOp) : (s.startEngine op).Inv := by
  rcases Nat.lt_or_ge s.build.inCap s.inLen.toNat with hc | hc
  · rw [startEngine_beyond op hc]
    exact hi.stored.inv_complete_failed fun h => by cases h
  · rw [startEngine_fits op hc]
    exact Stored.inv_of_noResult ⟨hi.legal, hi.inForm, hi.outForm⟩ rfl rfl rfl fun _ =>
      { captured := rfl, fits := hc, written := by simp, checking := fun _ => ⟨rfl, rfl⟩
        encoding := by simp, decoding := by simp, checked := fun _ h => by cases h }

theorem Inv.effect (hi : s.Inv) (hidle : s.status.busy = false) (i : Instr) :
    (effect i s).Inv := by
  have reject : s.rejectCommand.Inv := hi.stored.inv_complete_failed fun h => by cases h
  cases i with
  | nop => exact hi
  | encode => exact hi.startEngine .encode
  | decode => exact hi.startEngine .decode
  | clear =>
    refine Stored.inv_of_noResult ⟨hi.legal, hi.inForm, hi.outForm⟩ rfl rfl rfl fun h => ?_
    rw [Machine.effect, begin_status, hidle] at h; cases h
  | reserved47 _ => exact reject
  | reserved8F _ => exact reject

theorem Inv.setInLen (hi : s.Inv) (hidle : s.status.busy = false) (v : Word) :
    { s with inLen := v }.Inv :=
  { hi with running := fun h => by rw [hidle] at h; cases h }

theorem Inv.writeInBuf (hi : s.Inv) (hidle : s.status.busy = false) {i : Nat} {bs : List Byte}
    (hfit : i + bs.length ≤ s.build.inCap) :
    { s with inBuf := s.inBuf.writeSeq i bs }.Inv :=
  { hi with
    inForm := ⟨Memory.wf_writeSeq _ _ _ hi.inForm.1, Memory.below_writeSeq _ _ hi.inForm.2 hfit⟩
    running := fun h => by rw [hidle] at h; cases h }

end State

@[simp] theorem writtenBytes_length (w : Width) (v : Word) :
    (writtenBytes w v).length = w.bytes := by simp [writtenBytes]

/-- Every effect of a step keeps the invariant. -/
theorem StepEffect.inv {s t : State} (hs : StepEffect s t) (hi : s.Inv) : t.Inv := by
  cases hs with
  | keeps h => exact h.inv hi
  | engine _ h => exact h.inv hi.engineStep
  | reset _ _ h => exact h.inv hi.resetBlock
  | command hidle v _ _ h => exact h.inv (hi.effect hidle _)
  | inLen hidle v _ _ h => exact h.inv (hi.setInLen hidle v)
  | inBuf hidle w off v _ _ hlo hhi h =>
    refine h.inv (hi.writeInBuf hidle ?_)
    rw [writtenBytes_length]; omega

/-- Settles O11: every step is one of the effects, and each of them keeps the invariant. -/
theorem stepKeepsInvariant : Obligations.StepKeepsInvariant :=
  fun _ _ hi h => (stepEffect_of_step h).inv hi

/-- Settles O10. -/
theorem resetMeetsInvariant : Obligations.ResetMeetsInvariant := State.inv_reset

/-- Settles O32: the frame of an engine step; with the invariant no written byte lies beyond
`OUT_CAP`, before the step or after it; and a step reads no byte at or beyond `ENG.N`. -/
theorem engineStaysInItsBuffers : Obligations.EngineStaysInItsBuffers := by
  intro s
  obtain ⟨hbuild, hinLen, hinBuf, hera, htodo, hreplies⟩ := s.engineStep_frame
  refine ⟨⟨hinBuf, hinLen, hbuild, hera, htodo, hreplies⟩, fun hi i hcap => ?_, s.engineStep_inBuf⟩
  have hbelow := hi.engineStep.outForm.2
  rw [hbuild] at hbelow
  rw [Memory.read?_of_below _ hbelow hcap, Memory.read?_of_below _ hi.outForm.2 hcap]

end Sys2Proof.Machine
end

section
/-! What each move does to `STATUS`, `IN_LEN` and `IN_BUF`, by the effects of a step. -/

namespace Sys2Proof.Machine

/-- What the issue of each command does to `STATUS` (R80). -/
theorem effect_status_cases (i : Instr) (s : State) :
    (i = .nop ∧ (effect i s).status = s.status) ∨
    (i = .clear ∧ (effect i s).status = ⟨s.status.busy, false, .ok⟩) ∨
    ((i = .encode ∨ i = .decode) ∧ s.inLen.toNat ≤ s.build.inCap ∧
      (effect i s).status = ⟨true, false, .ok⟩) ∨
    ((i = .encode ∨ i = .decode) ∧ s.build.inCap < s.inLen.toNat ∧
      (effect i s).status = ⟨false, true, .capacity⟩) ∨
    ((∃ op, i = .reserved47 op ∨ i = .reserved8F op) ∧
      (effect i s).status = ⟨false, true, .badCommand⟩) := by
  have start : ∀ op,
      (s.inLen.toNat ≤ s.build.inCap ∧ (s.startEngine op).status = ⟨true, false, .ok⟩) ∨
      (s.build.inCap < s.inLen.toNat ∧ (s.startEngine op).status = ⟨false, true, .capacity⟩) := by
    intro op
    rcases Nat.lt_or_ge s.build.inCap s.inLen.toNat with h | h
    · exact .inr ⟨h, by rw [State.startEngine_beyond op h]⟩
    · exact .inl ⟨h, by rw [State.startEngine_fits op h]⟩
  cases i with
  | nop => exact .inl ⟨rfl, rfl⟩
  | clear => exact .inr (.inl ⟨rfl, rfl⟩)
  | encode =>
    rcases start .encode with h | h
    · exact .inr (.inr (.inl ⟨.inl rfl, h⟩))
    · exact .inr (.inr (.inr (.inl ⟨.inl rfl, h⟩)))
  | decode =>
    rcases start .decode with h | h
    · exact .inr (.inr (.inl ⟨.inr rfl, h⟩))
    · exact .inr (.inr (.inr (.inl ⟨.inr rfl, h⟩)))
  | reserved47 op => exact .inr (.inr (.inr (.inr ⟨⟨op, .inl rfl⟩, rfl⟩)))
  | reserved8F op => exact .inr (.inr (.inr (.inr ⟨⟨op, .inr rfl⟩, rfl⟩)))

/-- On an idle block exactly the issue of `ENCODE` or `DECODE` within capacity sets `BUSY`. -/
theorem effect_busy_iff {s : State} (hidle : s.status.busy = false) (i : Instr) :
    (effect i s).status.busy = true ↔
      (i = .encode ∨ i = .decode) ∧ s.inLen.toNat ≤ s.build.inCap := by
  rcases effect_status_cases i s with
    ⟨rfl, h⟩ | ⟨rfl, h⟩ | ⟨hi, hfit, h⟩ | ⟨hi, hbeyond, h⟩ | ⟨⟨op, rfl | rfl⟩, h⟩ <;> rw [h]
  · simp [hidle]
  · simp [hidle]
  · simp [hi, hfit]
  · simp [hbeyond]
  · simp
  · simp

/-- What a step can do to `STATUS`, by the moves that change it. -/
theorem StepEffect.status_cases {s t : State} (hs : StepEffect s t) :
    t.status = s.status ∨
    (s.status.busy = true ∧ (s.todo = [] ∨ ∃ rest, s.todo = .engine :: rest) ∧
      ∃ e, t.status = ⟨false, true, e⟩) ∨
    ((∃ rest, s.todo = .reset :: rest) ∧ t.status = ⟨false, false, .ok⟩) ∨
    (s.status.busy = false ∧ ∃ v rest, s.todo = commandWrite v :: rest ∧
      t.status = (effect (decodeWord v) s).status) := by
  cases hs with
  | keeps h => exact .inl h.status
  | engine hm h =>
    rw [h.status]
    rcases s.engineStep_status with ⟨hst, -⟩ | hend
    · exact .inl hst
    · exact .inr (.inl ⟨hend.1, hm, hend.2⟩)
  | reset rest hm h => exact .inr (.inr (.inl ⟨⟨rest, hm⟩, h.status⟩))
  | command hidle v rest hm h => exact .inr (.inr (.inr ⟨hidle, v, rest, hm, h.status⟩))
  | inLen _ _ _ _ h => exact .inl h.status
  | inBuf _ _ _ _ _ _ _ _ h => exact .inl h.status

/-- Settles O37: of the moves that change `STATUS`, the issue alone sets `BUSY`, and the completion
and the reset clear it. -/
theorem busyChangesOnlyAtIssueCompletionReset : Obligations.BusyChangesOnlyAtIssueCompletionReset := by
  intro s t h
  have hcases := (stepEffect_of_step h).status_cases
  refine ⟨fun hidle => ⟨fun hbusy => ?_, ?_⟩, fun hbusy hend => ?_, fun hbusy hnot hdone => ?_⟩
  · rcases hcases with ht | ⟨hb, -⟩ | ⟨-, ht⟩ | ⟨-, v, rest, hm, ht⟩
    · rw [ht, hidle] at hbusy; cases hbusy
    · rw [hidle] at hb; cases hb
    · rw [ht] at hbusy; cases hbusy
    · rw [ht] at hbusy
      exact ⟨v, rest, hm, (effect_busy_iff hidle _).1 hbusy⟩
  · rintro ⟨v, rest, hm, hissue⟩
    rw [(sameBlock_effect_of_step hm hidle h).status]
    exact (effect_busy_iff hidle _).2 hissue
  · rcases hcases with ht | ⟨-, hm, e, ht⟩ | ⟨hm, -⟩ | ⟨hidle, -⟩
    · rw [ht, hbusy] at hend; cases hend
    · exact .inr ⟨hm, by rw [ht]⟩
    · exact .inl hm
    · rw [hbusy] at hidle; cases hidle
  · rcases hcases with ht | ⟨-, -, e, ht⟩ | ⟨-, ht⟩ | ⟨hidle, -⟩
    · rw [ht, hnot] at hdone; cases hdone
    · rw [ht]
    · rw [ht]
    · rw [hbusy] at hidle; cases hidle

/-- Settles O38: of the moves that change `STATUS`, reset and the issue of a command other than `NOP`
clear `DONE`; the completion and an issue that is rejected set it. -/
theorem doneChangesOnlyAtIssueCompletionReset : Obligations.DoneChangesOnlyAtIssueCompletionReset := by
  intro s t h
  have hcases := (stepEffect_of_step h).status_cases
  refine ⟨fun hset hclear => ?_, fun hclear hset => ?_⟩
  · rcases hcases with ht | ⟨-, -, e, ht⟩ | ⟨hm, -⟩ | ⟨hidle, v, rest, hm, ht⟩
    · rw [ht, hset] at hclear; cases hclear
    · rw [ht] at hclear; cases hclear
    · exact .inl hm
    · refine .inr ⟨hidle, v, rest, hm, fun hnop => ?_⟩
      rw [ht, hnop] at hclear
      cases hset.symm.trans hclear
  · rcases hcases with ht | ⟨hbusy, hm, e, ht⟩ | ⟨-, ht⟩ | ⟨hidle, v, rest, hm, ht⟩
    · rw [ht, hclear] at hset; cases hset
    · exact .inl ⟨hbusy, by rw [ht], hm⟩
    · rw [ht] at hset; cases hset
    · refine .inr ⟨hidle, v, rest, hm, ?_⟩
      rcases effect_status_cases (decodeWord v) s with
        ⟨-, he⟩ | ⟨-, he⟩ | ⟨-, -, he⟩ | ⟨-, hbeyond, he⟩ | ⟨-, he⟩ <;> rw [he] at ht
      · rw [ht, hclear] at hset; cases hset
      · rw [ht] at hset; cases hset
      · rw [ht] at hset; cases hset
      · exact .inr ⟨by rw [ht], hbeyond⟩
      · exact .inl (by rw [ht])

/-- The build parameters are the same before and after every step (R29). -/
theorem StepEffect.build_eq {s t : State} (hs : StepEffect s t) : t.build = s.build := by
  cases hs with
  | keeps h => exact h.build
  | engine _ h => exact h.build.trans s.engineStep_frame.1
  | reset _ _ h => exact h.build
  | command _ v _ _ h => exact h.build.trans (effect_frame (decodeWord v) s).1
  | inLen _ _ _ _ h => exact h.build
  | inBuf _ _ _ _ _ _ _ _ h => exact h.build

/-- Settles O39: of the effects of a step, only reset and the host's writes on an idle block touch the
inputs. -/
theorem inputsChangeOnlyByIdleWritesOrReset : Obligations.InputsChangeOnlyByIdleWritesOrReset := by
  intro s t h
  have hs := stepEffect_of_step h
  refine ⟨hs.build_eq, fun hne => ?_, fun hne => ?_⟩
  · cases hs with
    | keeps h => exact absurd h.inLen hne
    | engine _ h =>
      obtain ⟨-, hinLen, -⟩ := s.engineStep_frame
      exact absurd (h.inLen.trans hinLen) hne
    | reset rest hm _ => exact .inl ⟨rest, hm⟩
    | command _ v _ _ h =>
      obtain ⟨-, hinLen, -⟩ := effect_frame (decodeWord v) s
      exact absurd (h.inLen.trans hinLen) hne
    | inLen hidle v rest hm h => exact .inr ⟨hidle, rest, by rw [h.inLen]; exact hm⟩
    | inBuf _ _ _ _ _ _ _ _ h => exact absurd h.inLen hne
  · cases hs with
    | keeps h => exact absurd h.inBuf hne
    | engine _ h =>
      obtain ⟨-, -, hinBuf, -⟩ := s.engineStep_frame
      exact absurd (h.inBuf.trans hinBuf) hne
    | reset rest hm _ => exact .inl ⟨rest, hm⟩
    | command _ v _ _ h =>
      obtain ⟨-, -, hinBuf, -⟩ := effect_frame (decodeWord v) s
      exact absurd (h.inBuf.trans hinBuf) hne
    | inLen _ _ _ _ h => exact absurd h.inBuf hne
    | inBuf hidle w off v rest hm hlo hhi _ => exact .inr ⟨hidle, w, off, v, rest, hm, hlo, hhi⟩

end Sys2Proof.Machine
end

section
/-! What the host reads in the registers and the table windows (R15, R32, R37). -/

namespace Sys2Proof.Machine

/-- A word is its four bytes, the lowest least significant (R32). -/
theorem append_wordByte (v : Word) :
    wordByte v 3 ++ wordByte v 2 ++ wordByte v 1 ++ wordByte v 0 = v := by
  simp only [wordByte]
  rw [BitVec.extractLsb'_append_extractLsb'_eq_extractLsb' (show 8 * 3 = 8 * 2 + 8 from rfl),
    BitVec.extractLsb'_append_extractLsb'_eq_extractLsb' (show 8 * 2 = 8 * 1 + 8 from rfl),
    BitVec.extractLsb'_append_extractLsb'_eq_extractLsb' (show 8 * 1 = 8 * 0 + 8 from rfl)]
  exact BitVec.extractLsb'_eq_self

/-- The four bytes of a register lie at its offset (R15). -/
theorem State.register_add (s : State) {x k : Nat} (ha : x % 4 = 0) (hk : k < 4) :
    s.register (x + k) = s.register x := by
  have below : ∀ b, b % 4 = 0 → (x + k < b ↔ x < b) := fun b hb => by omega
  simp only [State.register, below 0x04 rfl, below 0x08 rfl, below 0x0C rfl, below 0x10 rfl]

/-- A byte of a register region is a byte of the register at the aligned offset below it. -/
theorem State.hostByte_register (s : State) {x k : Nat} (ha : x % 4 = 0) (hx : x < 0x14)
    (hk : k < 4) : s.hostByte (x + k) = wordByte (s.register x) k := by
  rw [State.hostByte, region_eq_regs.2 (by omega), ← s.register_add ha hk]
  have hmod : (x + k) % 4 = k := by omega
  simp only [hmod]

/-- A read of the four bytes of a register gives the register. -/
theorem readReply_register (s : State) {off : Offset} (ha : off.toNat % 4 = 0)
    (hr : off.toNat < 0x14) : s.readReply .w32 off = .data .w32 (s.register off.toNat) := by
  have hacc : accepts s.build .w32 off = true := by
    simp [accepts, aligned, regionAccepts, region_eq_regs.2 hr, Width.bytes, ha]
  have hbyte0 := s.hostByte_register ha hr (k := 0) (by omega)
  rw [Nat.add_zero] at hbyte0
  rw [State.readReply, hacc, if_pos rfl, State.memRead, s.hostByte_register ha hr (by omega),
    s.hostByte_register ha hr (by omega), s.hostByte_register ha hr (by omega), hbyte0,
    append_wordByte]

variable (s : State)

@[simp] theorem readReply_cmd : s.readReply .w32 0x00 = .data .w32 0 :=
  readReply_register s (by decide) (by decide)

@[simp] theorem readReply_status : s.readReply .w32 0x04 = .data .w32 s.status.word :=
  readReply_register s (by decide) (by decide)

@[simp] theorem readReply_inLen : s.readReply .w32 0x08 = .data .w32 s.inLen :=
  readReply_register s (by decide) (by decide)

@[simp] theorem readReply_outLen : s.readReply .w32 0x0C = .data .w32 s.outLen :=
  readReply_register s (by decide) (by decide)

@[simp] theorem readReply_caps : s.readReply .w32 0x10 = .data .w32 (capsWord s.build) :=
  readReply_register s (by decide) (by decide)

/-- Every offset is aligned for an access of one byte. -/
theorem readReply_byte {off : Offset} (h : regionAccepts s.build .w8 off = true) :
    s.readReply .w8 off = .data .w8 ((s.hostByte off.toNat).setWidth 32) := by
  simp [State.readReply, accepts, aligned, Width.bytes, Nat.mod_one, h, State.memRead]

/-- A byte of the `FWD` window is the entry of the table (R37). -/
theorem readReply_fwd (c : Sextet) :
    s.readReply .w8 (0x100 + c.setWidth 18) = .data .w8 ((fwd c).setWidth 32) := by
  have hoff : (0x100 + c.setWidth 18 : Offset).toNat = fwdBase + c.toNat := by
    simp [fwdBase]; omega
  have hr : region (fwdBase + c.toNat) = .fwd := region_eq_fwd.2 (by simp only [fwdBase]; omega)
  rw [readReply_byte, hoff, State.hostByte, hr, Nat.add_sub_cancel_left, BitVec.ofNat_toNat,
    BitVec.setWidth_eq]
  rw [regionAccepts, hoff, hr]

/-- A byte of the `INV` window is the entry of the table (R37). -/
theorem readReply_inv (c : Code) :
    s.readReply .w8 (0x180 + c.setWidth 18) = .data .w8 ((inv c).setWidth 32) := by
  have hoff : (0x180 + c.setWidth 18 : Offset).toNat = invBase + c.toNat := by
    simp [invBase]; omega
  have hr : region (invBase + c.toNat) = .inv := region_eq_inv.2 (by simp only [invBase]; omega)
  rw [readReply_byte, hoff, State.hostByte, hr, Nat.add_sub_cancel_left, BitVec.ofNat_toNat,
    BitVec.setWidth_eq]
  rw [regionAccepts, hoff, hr]

/-- The fields of `STATUS` in their places, the other bits 0 (R17, R18, R19). -/
theorem Status.word_fields (st : Status) :
    st.word.getLsbD 0 = st.busy ∧ st.word.getLsbD 1 = st.done ∧
    st.word.extractLsb' 4 4 = st.err.bits ∧ st.word.extractLsb' 2 2 = 0 ∧
    st.word.extractLsb' 8 24 = 0 := by
  simp only [Status.word]
  generalize st.err.bits = e
  refine ⟨?_, ?_, ?_, ?_, ?_⟩
  · rw [BitVec.getLsbD_append]; simp
  · rw [BitVec.getLsbD_append, BitVec.getLsbD_append]; simp
  all_goals
    rw [BitVec.extractLsb'_append_eq_of_le (by omega), BitVec.extractLsb'_append_eq_of_le (by omega)]
  · rw [BitVec.extractLsb'_append_eq_of_le (by omega)]; exact BitVec.extractLsb'_append_eq_right
  · exact BitVec.extractLsb'_append_eq_right
  · rw [BitVec.extractLsb'_append_eq_of_le (by omega)]; exact BitVec.extractLsb'_append_eq_left

/-- The fields of `CAPS` in their places, the other bits 0 (R22). -/
theorem capsWord_fields (b : Build) :
    (capsWord b).extractLsb' 0 16 = BitVec.ofNat 16 b.inCap ∧
    (capsWord b).getLsbD 16 = (b.padPolicy == .strict) ∧ (capsWord b).extractLsb' 17 15 = 0 := by
  simp only [capsWord]
  refine ⟨BitVec.extractLsb'_append_eq_right, ?_, ?_⟩
  · rw [BitVec.getLsbD_append, BitVec.getLsbD_append]
    cases b.padPolicy <;> rfl
  · rw [BitVec.extractLsb'_append_eq_of_le (by omega)]; exact BitVec.extractLsb'_append_eq_left

/-- Settles O34: each register reads its value, and `STATUS` has its fields in their places. -/
theorem registerReads : Obligations.RegisterReads := by
  intro s
  obtain ⟨hbusy, hdone, herr, hlow, hhigh⟩ := s.status.word_fields
  refine ⟨readReply_cmd s, ⟨_, readReply_status s, hbusy, hdone, ?_, ?_, ?_, ?_, ?_, ?_, ?_, hlow,
    hhigh⟩, readReply_inLen s, readReply_outLen s⟩
  all_goals intro he; rw [herr, he]; rfl

/-- Settles O35: `CAPS` is a function of the build, which no step changes. -/
theorem capsReportsTheBuild : Obligations.CapsReportsTheBuild := by
  intro s
  refine ⟨fun hlegal => ?_, fun t h => ?_⟩
  · obtain ⟨hcap, hpad, hrest⟩ := capsWord_fields s.build
    refine ⟨_, readReply_caps s, ?_, hpad, hrest⟩
    have hmax := hlegal.2
    rw [hcap, BitVec.toNat_ofNat]; omega
  · rw [readReply_caps, readReply_caps, (stepEffect_of_step h).build_eq]

/-- Settles O8: the register and table reads of every state, at the values of reset. -/
theorem resetStateValues : Obligations.ResetStateValues :=
  ⟨rfl, rfl, rfl, readReply_cmd _, readReply_status _, readReply_caps _, fun _ => ⟨rfl, rfl⟩,
    readReply_fwd _, readReply_inv _⟩

end Sys2Proof.Machine
end

section
/-! Writes to `IN_LEN` (R20, R80, R105). -/

namespace Sys2Proof.Machine

variable {s : State}

theorem State.writeInLen_idle (h : s.status.busy = false) (v : Word) :
    s.writeInLen v = { s with inLen := v } := by simp [State.writeInLen, h]

theorem State.writeInLen_busy (h : s.status.busy = true) (v : Word) : s.writeInLen v = s := by
  simp [State.writeInLen, h]

/-- An issue of `ENCODE` or `DECODE` beyond capacity completes at once with `CAPACITY` (R80). -/
theorem exec_beyond (hidle : s.status.busy = false) (h : s.build.inCap < s.inLen.toNat) :
    exec .encode s = .next { s with status := ⟨false, true, .capacity⟩, outLen := 0 } ∧
    exec .decode s = .next { s with status := ⟨false, true, .capacity⟩, outLen := 0 } := by
  rw [exec_eq_issue, exec_eq_issue, State.issue_idle hidle, State.issue_idle hidle]
  exact ⟨congrArg _ (State.startEngine_beyond .encode h), congrArg _ (State.startEngine_beyond .decode h)⟩

/-- Settles O36: an accepted write to `IN_LEN` stores the word on an idle block and nothing on a busy
one, and no engine step touches the register. -/
theorem inLenHoldsTheLastValueWritten : Obligations.InLenHoldsTheLastValueWritten := by
  intro s v rest hm
  obtain ⟨-, hengine, -⟩ := s.engineStep_frame
  have hsame := s.sameBlock_written rest .written
  have hstep := step_of_inLenWrite hm
  cases hb : s.status.busy
  · rw [State.writeInLen_idle (hsame.status ▸ hb)] at hstep
    exact ⟨_, hstep, rfl, rfl, fun _ => ⟨hsame.setInLen v, readReply_inLen _, fun h => exec_beyond hb h⟩,
      nofun, hengine⟩
  · rw [State.writeInLen_busy (hsame.status ▸ hb)] at hstep
    exact ⟨_, hstep, rfl, rfl, nofun, fun _ => hsame, hengine⟩

end Sys2Proof.Machine
end

section
/-! What a host access does, by the move that stands first (R32, R38 to R40): the response it gets, and
what of the block a write other than to `CMD` can change. -/

namespace Sys2Proof.Machine

variable {s t : State} {w : Width} {off : Offset} {v : Word} {rest : List Event}

/-- A read leaves the block and adds its response; only while busy it draws anew (R40, U4). -/
theorem step_of_read (hm : s.todo = .read w off :: rest) :
    ∃ t, step s = .next t ∧ s.SameBlock t ∧ t.todo = rest ∧
      t.replies = s.readReply w off :: s.replies ∧ (s.status.busy = false → t.fresh = s.fresh) := by
  refine ⟨{ s with todo := rest }.busRead w off, by rw [step_of_todo hm]; rfl,
    (s.sameBlock_todo rest).trans (State.sameBlock_busRead _ w off), State.busRead_todo _ _ _,
    State.busRead_replies _ _ _, fun hidle => ?_⟩
  simp [State.busRead, State.afterRead, hidle]

theorem State.readReply_legal (h : ¬ IllegalAccess s.build w off) :
    s.readReply w off = .data w (s.memRead w off) := if_pos ((accepts_iff _ _ _).2 h)

theorem State.readReply_illegal (h : IllegalAccess s.build w off) :
    s.readReply w off = .busError := if_neg fun ha => (accepts_iff _ _ _).1 ha h

/-- A write to `IN_LEN` leaves the moves to come and the responses given. -/
theorem State.writeInLen_frame (s : State) (v : Word) :
    (s.writeInLen v).todo = s.todo ∧ (s.writeInLen v).replies = s.replies := by
  simp only [State.writeInLen]; split <;> exact ⟨rfl, rfl⟩

/-- A write to `IN_BUF` leaves the moves to come and the responses given. -/
theorem State.writeInBuf_frame (s : State) (i : Nat) (bs : List Byte) :
    (s.writeInBuf i bs).todo = s.todo ∧ (s.writeInBuf i bs).replies = s.replies := by
  simp only [State.writeInBuf]; split <;> exact ⟨rfl, rfl⟩

/-- Every write answers a next state. The response is the error exactly when the bus does not accept the
access, and the moves to come stay. -/
theorem step_of_write (hm : s.todo = .write w off v :: rest) :
    ∃ t, step s = .next t ∧ t.todo = rest ∧
      t.replies = (if accepts s.build w off then .written else .busError) :: s.replies := by
  rw [step_of_todo hm, State.perform]
  rcases State.busWrite_cases { s with todo := rest } w off v with
    ⟨ha, hw⟩ | ⟨ha, ⟨-, -, hw⟩ | ⟨-, -, hw⟩ | ⟨-, hw⟩ | ⟨-, hw⟩⟩ <;>
    replace ha : accepts s.build w off = _ := ha <;> rw [hw, ha]
  · exact ⟨_, rfl, rfl, rfl⟩
  · rw [exec_eq]
    obtain ⟨-, -, -, -, -, htodo, hreplies, -⟩ :=
      effect_frame (decodeWord v) ({ s with todo := rest }.afterWrite .written)
    split
    · exact ⟨_, rfl, rfl, rfl⟩
    · exact ⟨_, rfl, htodo, hreplies⟩
  · obtain ⟨htodo, hreplies⟩ := ({ s with todo := rest }.afterWrite .written).writeInLen_frame v
    exact ⟨_, rfl, htodo, hreplies⟩
  · obtain ⟨htodo, hreplies⟩ := ({ s with todo := rest }.afterWrite .written).writeInBuf_frame
      (off.toNat - inBase) (writtenBytes w v)
    exact ⟨_, rfl, htodo, hreplies⟩
  · exact ⟨_, rfl, rfl, rfl⟩

/-- A write that the bus does not accept changes nothing of the block (R39). -/
theorem sameBlock_of_illegalWrite (hm : s.todo = .write w off v :: rest)
    (hill : IllegalAccess s.build w off) (h : step s = .next t) : s.SameBlock t := by
  have hacc : accepts s.build w off = false := by
    simpa using fun ha => (accepts_iff _ _ _).1 ha hill
  rw [step_of_todo hm] at h
  simp only [State.perform, State.busWrite, hacc] at h
  cases h
  exact s.sameBlock_written rest _

/-- A write other than to `CMD` leaves the block, or stores in `IN_LEN` or in `IN_BUF`. -/
theorem block_of_dataWrite (hm : s.todo = .write w off v :: rest) (hcmd : off ≠ 0)
    (h : step s = .next t) :
    s.SameBlock t ∨ (off = 0x08 ∧ { s with inLen := v }.SameBlock t) ∨
    (region off.toNat = .inBuf ∧
      { s with inBuf := s.inBuf.writeSeq (off.toNat - inBase) (writtenBytes w v) }.SameBlock t) := by
  have hsame := s.sameBlock_written rest
  rw [step_of_todo hm, State.perform] at h
  rcases State.busWrite_cases { s with todo := rest } w off v with
    ⟨-, hw⟩ | ⟨-, ⟨-, hoff, -⟩ | ⟨-, hoff, hw⟩ | ⟨hr, hw⟩ | ⟨-, hw⟩⟩
  · rw [hw] at h; cases h
    exact .inl (hsame _)
  · exact absurd hoff hcmd
  · rw [hw] at h; cases h
    exact (State.sameBlock_unlessBusy (hsame .written) ((hsame .written).setInLen v)).imp_right
      fun ⟨_, he⟩ => .inl ⟨hoff, he⟩
  · rw [hw] at h; cases h
    exact (State.sameBlock_unlessBusy (hsame .written) ((hsame .written).writeInBuf _ _)).imp_right
      fun ⟨_, he⟩ => .inr ⟨hr, he⟩
  · rw [hw] at h; cases h
    exact .inl (hsame _)

/-- A write outside `CMD`, `IN_LEN` and `IN_BUF` leaves the block. -/
theorem sameBlock_of_readOnlyWrite (hm : s.todo = .write w off v :: rest) (hcmd : off ≠ 0)
    (hlen : off ≠ 0x08) (hbuf : off.toNat < 0x10000 ∨ 0x20000 ≤ off.toNat) (h : step s = .next t) :
    s.SameBlock t := by
  rcases block_of_dataWrite hm hcmd h with hsame | ⟨hoff, -⟩ | ⟨hr, -⟩
  · exact hsame
  · exact absurd hoff hlen
  · have := region_eq_inBuf.1 hr; omega

/-- Settles O40: the bus accepts exactly the legal accesses, and the response says which it was. -/
theorem busErrorExactlyOnIllegalAccess : Obligations.BusErrorExactlyOnIllegalAccess := by
  intro s w off rest
  refine ⟨fun hm => ?_, fun v hm => ?_⟩
  · obtain ⟨t, hstep, hsame, htodo, hreplies, -⟩ := step_of_read hm
    refine ⟨t, hstep, htodo, hsame, fun hill => ?_, fun hlegal => ?_⟩
    · rw [hreplies, State.readReply_illegal hill]
    · rw [hreplies, State.readReply_legal hlegal]
  · obtain ⟨t, hstep, htodo, hreplies⟩ := step_of_write hm
    refine ⟨t, hstep, htodo, fun hill => ⟨?_, sameBlock_of_illegalWrite hm hill hstep⟩, fun hlegal => ?_⟩
    · rw [hreplies, if_neg fun ha => (accepts_iff _ _ _).1 ha hill]
    · rw [hreplies, if_pos ((accepts_iff _ _ _).2 hlegal)]

/-- Settles O43: none of these places is `CMD`, `IN_LEN` or in `IN_BUF`. -/
theorem writesToReadOnlyPlacesIgnored : Obligations.WritesToReadOnlyPlacesIgnored := by
  intro s w off v rest hm hlegal hplace
  obtain ⟨t, hstep, htodo, hreplies⟩ := step_of_write hm
  rw [if_pos ((accepts_iff _ _ _).2 hlegal)] at hreplies
  have hcmd : off ≠ 0x00 := by bv_omega
  have hlen : off ≠ 0x08 := by bv_omega
  exact ⟨t, hstep, sameBlock_of_readOnlyWrite hm hcmd hlen (by bv_omega) hstep, hreplies, htodo⟩

/-! ### Stored bytes -/

/-- A write at `IN_BUF[i]` leaves the bytes outside those it carries. -/
theorem State.inByte_writeSeq_other (s : State) (bs : List Byte) {i a : Nat}
    (h : a < i ∨ i + bs.length ≤ a) :
    { s with inBuf := s.inBuf.writeSeq i bs }.inByte a = s.inByte a := by
  simp only [State.inByte, Memory.read?_writeSeq_other bs s.inBuf h]

/-- Settles O42: the frame of a store in `IN_LEN` and of one in `IN_BUF`. -/
theorem onlyCommandWritesHaveSideEffects : Obligations.OnlyCommandWritesHaveSideEffects := by
  intro s w off v rest hm hcmd
  obtain ⟨t, hstep, htodo, -⟩ := step_of_write hm
  refine ⟨t, hstep, htodo, ?_⟩
  rcases block_of_dataWrite hm hcmd hstep with h | ⟨hoff, h⟩ | ⟨hr, h⟩
  · exact ⟨h.build, h.status, h.outLen, h.outBuf, h.eng, h.era, fun _ => h.inLen,
      fun i _ => h.inByte i⟩
  · exact ⟨h.build, h.status, h.outLen, h.outBuf, h.eng, h.era, fun hne => absurd hoff hne,
      fun i _ => h.inByte i⟩
  · refine ⟨h.build, h.status, h.outLen, h.outBuf, h.eng, h.era, fun _ => h.inLen, fun i hi => ?_⟩
    have hrange := region_eq_inBuf.1 hr
    rw [h.inByte]
    refine s.inByte_writeSeq_other _ ?_
    simp only [writtenBytes_length, inBase]; omega

end Sys2Proof.Machine
end

section
/-! What a read returns: its bytes, each from the place its offset lies in (R31, R32, R35 to R37). -/

namespace Sys2Proof.Machine

variable (s : State)

/-! ### One byte -/

theorem State.hostByte_fwd {x : Nat} (h : region x = .fwd) :
    s.hostByte x = fwd (BitVec.ofNat 6 (x - fwdBase)) := by rw [State.hostByte, h]

theorem State.hostByte_inv {x : Nat} (h : region x = .inv) :
    s.hostByte x = inv (BitVec.ofNat 7 (x - invBase)) := by rw [State.hostByte, h]

theorem State.hostByte_inBuf {x : Nat} (h : region x = .inBuf) :
    s.hostByte x = s.inByte (x - inBase) := by rw [State.hostByte, h]

theorem State.hostByte_outBuf {x : Nat} (h : region x = .outBuf) :
    s.hostByte x = s.hostOutByte (x - outBase) := by rw [State.hostByte, h]

/-- A byte of the result of an idle block is the stored one (R36). -/
theorem State.hostOutByte_result {i : Nat} (hidle : s.status.busy = false)
    (hi : i < s.outLen.toNat) : s.hostOutByte i = s.outByte i := by
  simp [State.hostOutByte, hidle, hi]

/-- A read of one byte of `IN_BUF` gives the stored byte, busy or not. -/
theorem readReply_inBuf {i : Nat} (hlegal : s.build.Legal) (hi : i < s.build.inCap) :
    s.readReply .w8 (BitVec.ofNat 18 (0x10000 + i)) = .data .w8 ((s.inByte i).setWidth 32) := by
  have hmax := hlegal.2
  have hoff : (BitVec.ofNat 18 (0x10000 + i)).toNat = inBase + i := by
    simp only [BitVec.toNat_ofNat, inBase]; omega
  have hr : region (inBase + i) = .inBuf := region_eq_inBuf.2 (by simp only [inBase]; omega)
  rw [readReply_byte, hoff, s.hostByte_inBuf hr, Nat.add_sub_cancel_left]
  simp only [regionAccepts, hoff, hr, Width.bytes, decide_eq_true_eq]; omega

/-- Settles O47: a byte of the result lies in `OUT_BUF`, and an idle block shows what is stored. -/
theorem resultBytesReadBack : Obligations.ResultBytesReadBack := by
  intro s hidle hfit hlegal i hi
  have hmax := hlegal.2
  have hcap : outCap s.build ≤ 65536 := by simp only [outCap]; omega
  have hoff : (BitVec.ofNat 18 (0x20000 + i)).toNat = outBase + i := by
    simp only [BitVec.toNat_ofNat, outBase]; omega
  have hr : region (outBase + i) = .outBuf := region_eq_outBuf.2 (by simp only [outBase]; omega)
  rw [readReply_byte, hoff, s.hostByte_outBuf hr, Nat.add_sub_cancel_left,
    s.hostOutByte_result hidle hi]
  simp only [regionAccepts, hoff, hr, Width.bytes, decide_eq_true_eq]; omega

/-! ### Several bytes -/

variable {s} {w : Width} {off : Offset}

/-- Each byte of a legal access outside the registers is legal to read on its own. -/
theorem IllegalAccess.not_byte {b : Build} {k : Nat} (h : ¬ IllegalAccess b w off)
    (hlo : 0x100 ≤ off.toNat) (hk : k < w.bytes) :
    off.toNat + k < 2 ^ 18 ∧ ¬ IllegalAccess b .w8 (off + BitVec.ofNat 18 k) := by
  have hlt := off.isLt
  have hoff : off.toNat + k < 2 ^ 18 → (off + BitVec.ofNat 18 k).toNat = off.toNat + k := by
    simp only [BitVec.toNat_add, BitVec.toNat_ofNat]; omega
  simp only [IllegalAccess] at h ⊢
  have hsum : off.toNat + k < 2 ^ 18 := by
    cases w <;> simp only [Width.bytes] at h hk <;> omega
  rw [hoff hsum]
  refine ⟨hsum, ?_⟩
  cases w <;> simp only [Width.bytes] at h hk ⊢ <;> omega

/-- A legal access that begins below `OUT_BUF` ends below it, for it is aligned. -/
theorem IllegalAccess.not_below {b : Build} {k : Nat}
    (h : ¬ IllegalAccess b w off) (hlo : off.toNat < 0x20000) (hk : k < w.bytes) :
    off.toNat + k < 0x20000 := by
  cases w <;> simp only [IllegalAccess, Width.bytes] at h hk <;> omega

/-- A 1-byte read of a byte of a legal access finds that byte. -/
theorem readReply_byteOf {k : Nat} (h : ¬ IllegalAccess s.build w off) (hlo : 0x100 ≤ off.toNat)
    (hk : k < w.bytes) :
    s.readReply .w8 (off + BitVec.ofNat 18 k) =
      .data .w8 ((s.hostByte (off.toNat + k)).setWidth 32) := by
  obtain ⟨hsum, hbyte⟩ := IllegalAccess.not_byte h hlo hk
  have hoff : (off + BitVec.ofNat 18 k).toNat = off.toNat + k := by
    simp only [BitVec.toNat_add, BitVec.toNat_ofNat]; omega
  rw [State.readReply_legal hbyte, State.memRead, hoff]

/-- Settles O45: the bytes of a wide read are those of the 1-byte reads at its offsets. -/
theorem wideReadsAreLittleEndian : Obligations.WideReadsAreLittleEndian := by
  intro s off hlo
  refine ⟨fun h => ?_, fun h => ?_⟩
  all_goals
    have byte := fun k => readReply_byteOf (k := k) h hlo
    have byte0 := byte 0 (by decide)
    rw [BitVec.add_zero] at byte0
  · exact ⟨_, _, byte0, byte 1 (by decide), State.readReply_legal h⟩
  · exact ⟨_, _, _, _, byte0, byte 1 (by decide), byte 2 (by decide), byte 3 (by decide),
      State.readReply_legal h⟩

/-- An aligned access in a table window is legal. -/
theorem IllegalAccess.not_window {b : Build} (ha : off.toNat % w.bytes = 0)
    (hwin : (0x100 ≤ off.toNat ∧ off.toNat < 0x140) ∨ (0x180 ≤ off.toNat ∧ off.toNat < 0x200)) :
    ¬ IllegalAccess b w off := by
  simp only [IllegalAccess]; omega

/-- The bytes from an entry of a table window on are the entries from there on. -/
theorem hostByte_table {n base k : Nat} {table : BitVec n → Byte} {c : BitVec n}
    (htable : ∀ a : BitVec n, s.hostByte (base + a.toNat) = table a)
    (hoff : off.toNat = base + c.toNat) (hk : c.toNat + k < 2 ^ n) :
    s.hostByte (off.toNat + k) = table (c + BitVec.ofNat n k) := by
  have hadd : (c + BitVec.ofNat n k).toNat = c.toNat + k := by
    rw [BitVec.toNat_add, BitVec.toNat_ofNat, Nat.add_mod_mod, Nat.mod_eq_of_lt hk]
  rw [← htable, hadd, hoff, Nat.add_assoc]

theorem readReply_table16 {n base : Nat} {table : BitVec n → Byte} {c : BitVec n}
    (htable : ∀ a : BitVec n, s.hostByte (base + a.toNat) = table a)
    (hoff : off.toNat = base + c.toNat) (hc : c.toNat + 1 < 2 ^ n)
    (hlegal : ¬ IllegalAccess s.build .w16 off) :
    s.readReply .w16 off =
      .data .w16 ((table (c + BitVec.ofNat n 1) ++ table c).setWidth 32) := by
  rw [State.readReply_legal hlegal, State.memRead, hostByte_table htable hoff hc, hoff, htable]

theorem readReply_table32 {n base : Nat} {table : BitVec n → Byte} {c : BitVec n}
    (htable : ∀ a : BitVec n, s.hostByte (base + a.toNat) = table a)
    (hoff : off.toNat = base + c.toNat) (hc : c.toNat + 3 < 2 ^ n)
    (hlegal : ¬ IllegalAccess s.build .w32 off) :
    s.readReply .w32 off = .data .w32 (table (c + BitVec.ofNat n 3) ++ table (c + BitVec.ofNat n 2) ++
      table (c + BitVec.ofNat n 1) ++ table c) := by
  rw [State.readReply_legal hlegal, State.memRead, hostByte_table htable hoff hc,
    hostByte_table htable hoff (k := 2) (by omega), hostByte_table htable hoff (k := 1) (by omega),
    hoff, htable]

theorem hostByte_fwdBase (c : Sextet) : s.hostByte (fwdBase + c.toNat) = fwd c := by
  have hr : region (fwdBase + c.toNat) = .fwd := region_eq_fwd.2 (by simp only [fwdBase]; omega)
  rw [s.hostByte_fwd hr, Nat.add_sub_cancel_left, BitVec.ofNat_toNat, BitVec.setWidth_eq]

theorem hostByte_invBase (c : Code) : s.hostByte (invBase + c.toNat) = inv c := by
  have hr : region (invBase + c.toNat) = .inv := region_eq_inv.2 (by simp only [invBase]; omega)
  rw [s.hostByte_inv hr, Nat.add_sub_cancel_left, BitVec.ofNat_toNat, BitVec.setWidth_eq]

theorem fwdOffset_toNat (c : Sextet) : (0x100 + c.setWidth 18 : Offset).toNat = fwdBase + c.toNat := by
  simp [fwdBase]; omega

theorem invOffset_toNat (c : Code) : (0x180 + c.setWidth 18 : Offset).toNat = invBase + c.toNat := by
  simp [invBase]; omega

/-- An aligned access in the `FWD` window is legal. -/
theorem IllegalAccess.not_fwd {b : Build} {c : Sextet} (h : (fwdBase + c.toNat) % w.bytes = 0) :
    ¬ IllegalAccess b w (0x100 + c.setWidth 18) := by
  rw [← fwdOffset_toNat] at h
  exact not_window h (by rw [fwdOffset_toNat, fwdBase]; omega)

/-- An aligned access in the `INV` window is legal. -/
theorem IllegalAccess.not_inv {b : Build} {c : Code} (h : (invBase + c.toNat) % w.bytes = 0) :
    ¬ IllegalAccess b w (0x180 + c.setWidth 18) := by
  rw [← invOffset_toNat] at h
  exact not_window h (by rw [invOffset_toNat, invBase]; omega)

/-- Settles O46: the bytes of each window are the entries of its table, alone and several in one read,
and a write there is to a read-only place. -/
theorem tableWindowsShowTheTables : Obligations.TableWindowsShowTheTables := by
  intro s
  have fwd32 : ∀ c : Sextet, c.toNat % 4 = 0 → s.readReply .w32 (0x100 + c.setWidth 18) =
      .data .w32 (fwd (c + 3) ++ fwd (c + 2) ++ fwd (c + 1) ++ fwd c) := fun c hc =>
    readReply_table32 hostByte_fwdBase (fwdOffset_toNat c) (by omega)
      (IllegalAccess.not_fwd (by simp only [fwdBase, Width.bytes]; omega))
  refine ⟨readReply_fwd s, readReply_inv s, fwd32, fun c hc => ?_, fun c hc => ?_, fun c hc => ?_,
    fwd32 0 rfl, fun w off v rest hm hlo hhi => ?_⟩
  · exact readReply_table32 hostByte_invBase (invOffset_toNat c) (by omega)
      (IllegalAccess.not_inv (by simp only [invBase, Width.bytes]; omega))
  · exact readReply_table16 hostByte_fwdBase (fwdOffset_toNat c) (by omega)
      (IllegalAccess.not_fwd (by simp only [fwdBase, Width.bytes]; omega))
  · exact readReply_table16 hostByte_invBase (invOffset_toNat c) (by omega)
      (IllegalAccess.not_inv (by simp only [invBase, Width.bytes]; omega))
  · obtain ⟨t, hstep, -⟩ := step_of_write hm
    have hcmd : off ≠ 0x00 := by bv_omega
    have hlen : off ≠ 0x08 := by bv_omega
    exact ⟨t, hstep, sameBlock_of_readOnlyWrite hm hcmd hlen (by omega) hstep⟩

end Sys2Proof.Machine
end

section
/-! Reads with only reads between them (R40). -/

namespace Sys2Proof.Machine

namespace State

variable {s t : State} {w : Width} {off : Offset}

theorem SameBlock.register (h : s.SameBlock t) (x : Nat) : t.register x = s.register x := by
  simp only [State.register, h.status, h.inLen, h.outLen, h.build]

theorem SameBlock.hostOutByte (h : s.SameBlock t) (hf : t.fresh = s.fresh) (i : Nat) :
    t.hostOutByte i = s.hostOutByte i := by
  simp only [State.hostOutByte, State.outByte, h.status, h.outLen, h.outBuf, hf]

/-- What the host finds in a byte is the block's, but for bytes of `OUT_BUF` after another draw. -/
theorem SameBlock.hostByte (h : s.SameBlock t) {x : Nat} (hx : t.fresh = s.fresh ∨ x < 0x20000) :
    t.hostByte x = s.hostByte x := by
  cases hr : region x with
  | regs => simp only [State.hostByte, hr, h.register]
  | fwd => rw [t.hostByte_fwd hr, s.hostByte_fwd hr]
  | inv => rw [t.hostByte_inv hr, s.hostByte_inv hr]
  | inBuf => rw [t.hostByte_inBuf hr, s.hostByte_inBuf hr, h.inByte]
  | outBuf =>
    have hout := region_eq_outBuf.1 hr
    rw [t.hostByte_outBuf hr, s.hostByte_outBuf hr, h.hostOutByte (hx.resolve_right (by omega))]
  | reserved => simp only [State.hostByte, hr]

theorem memRead_congr
    (h : ∀ k, k < w.bytes → t.hostByte (off.toNat + k) = s.hostByte (off.toNat + k)) :
    t.memRead w off = s.memRead w off := by
  have byte0 : t.hostByte off.toNat = s.hostByte off.toNat := h 0 (by cases w <;> decide)
  cases w with
  | w8 => rw [memRead, memRead, byte0]
  | w16 => rw [memRead, memRead, byte0, h 1 (by decide)]
  | w32 => rw [memRead, memRead, byte0, h 1 (by decide), h 2 (by decide), h 3 (by decide)]

/-- The response to a read is the block's, but for reads of `OUT_BUF` after another draw. -/
theorem SameBlock.readReply (h : s.SameBlock t) (ho : t.fresh = s.fresh ∨ off.toNat < 0x20000) :
    t.readReply w off = s.readReply w off := by
  by_cases hill : IllegalAccess s.build w off
  · rw [readReply_illegal hill, readReply_illegal (h.build ▸ hill)]
  · rw [readReply_legal hill, readReply_legal (h.build ▸ hill)]
    refine congrArg _ (memRead_congr fun k hk => h.hostByte (ho.imp_right fun hlo => ?_))
    exact IllegalAccess.not_below hill hlo hk

end State

/-- Reads leave the block, and each adds one response. -/
theorem run_reads (es : List Event) {s : State} {rest : List Event}
    (hreads : ∀ e ∈ es, ∃ w off, e = .read w off) (hm : s.todo = es ++ rest) :
    ∃ t rs, run es.length s = .next t ∧ s.SameBlock t ∧ t.todo = rest ∧
      t.replies = rs ++ s.replies ∧ rs.length = es.length ∧
      (s.status.busy = false → t.fresh = s.fresh) := by
  induction es generalizing s with
  | nil => exact ⟨s, [], rfl, State.SameBlock.refl s, hm, rfl, rfl, fun _ => rfl⟩
  | cons e es ih =>
    obtain ⟨⟨w, off, rfl⟩, hes⟩ := List.forall_mem_cons.1 hreads
    obtain ⟨u, hstep, hsame, htodo, hreplies, hfresh⟩ := step_of_read hm
    obtain ⟨t, rs, hrun, hsame', htodo', hreplies', hlen, hfresh'⟩ := ih hes htodo
    refine ⟨t, rs ++ [s.readReply w off], ?_, hsame.trans hsame', htodo', ?_, ?_, fun hidle => ?_⟩
    · rw [List.length_cons, run_succ hstep, hrun]
    · rw [hreplies', hreplies, List.append_cons]
    · rw [List.length_append, hlen]; rfl
    · exact (hfresh' (hsame.status ▸ hidle)).trans (hfresh hidle)

/-- Settles O41: the second read finds the block of the first, and while idle its draw too. -/
theorem readsHaveNoSideEffect : Obligations.ReadsHaveNoSideEffect := by
  intro s w off mid rest hmid hm
  obtain ⟨u, hstep, hsame, htodo, hreplies, hfresh⟩ := step_of_read hm
  obtain ⟨t, rs, hrun, hsame', htodo', hreplies', hlen, hfresh'⟩ := run_reads mid hmid htodo
  obtain ⟨z, hlast, hsame'', htodo'', hreplies'', -⟩ := step_of_read htodo'
  have hst := hsame.trans hsame'
  refine ⟨z, s.readReply w off, t.readReply w off, rs, ?_, hst.trans hsame'', htodo'', ?_, hlen,
    fun ho => hst.readReply (ho.imp_left fun hidle => ?_)⟩
  · rw [run_succ hstep, run_add hrun, run_succ hlast]; rfl
  · rw [hreplies'', hreplies', hreplies]; rfl
  · exact (hfresh' (hsame.status ▸ hidle)).trans (hfresh hidle)

end Sys2Proof.Machine
end

section
/-! `IN_BUF` as the host writes it and reads it back (R32, R35, R105). -/

namespace Sys2Proof.Machine

variable {s t : State} {w : Width} {off : Offset} {v : Word} {rest : List Event}

/-- The low `n` bits of a word. -/
theorem setWidth_extractLsb'_zero (v : Word) (n : Nat) :
    (v.extractLsb' 0 n).setWidth 32 = v &&& BitVec.ofNat 32 (2 ^ n - 1) := by
  ext i hi
  simp [← BitVec.getLsbD_eq_getElem, BitVec.getLsbD_ofNat, hi, Bool.and_comm]

/-- A read that finds the bytes of a value, lowest first, gives the value's low bytes. -/
theorem memRead_of_bytes
    (h : ∀ k, k < w.bytes → s.hostByte (off.toNat + k) = wordByte v k) :
    s.memRead w off = v &&& BitVec.ofNat 32 (2 ^ (8 * w.bytes) - 1) := by
  have byte0 : s.hostByte off.toNat = wordByte v 0 := h 0 (by cases w <;> decide)
  rw [← setWidth_extractLsb'_zero]
  cases w with
  | w8 => rw [State.memRead, byte0]; rfl
  | w16 =>
    rw [State.memRead, byte0, h 1 (by decide), wordByte, wordByte,
      BitVec.extractLsb'_append_extractLsb'_eq_extractLsb' (show 8 * 1 = 8 * 0 + 8 from rfl)]
    rfl
  | w32 =>
    rw [State.memRead, byte0, h 1 (by decide), h 2 (by decide), h 3 (by decide), append_wordByte]
    simp [Width.bytes]

/-- A write at `IN_BUF[i]` stores the bytes it carries. -/
theorem State.inByte_writeSeq (s : State) (i : Nat) {k : Nat} (hk : k < w.bytes) :
    { s with inBuf := s.inBuf.writeSeq i (writtenBytes w v) }.inByte (i + k) = wordByte v k := by
  have hlen : k < (writtenBytes w v).length := (writtenBytes_length w v).symm ▸ hk
  simp only [State.inByte, Memory.read?_writeSeq _ s.inBuf i k hlen, Option.getD_some]
  simp [writtenBytes]

/-- A legal write in `IN_BUF` stores its bytes on an idle block and nothing on a busy one. -/
theorem block_of_inBufWrite (hm : s.todo = .write w off v :: rest)
    (hlegal : ¬ IllegalAccess s.build w off) (hr : region off.toNat = .inBuf)
    (h : step s = .next t) :
    (s.status.busy = true → s.SameBlock t) ∧
    (s.status.busy = false →
      { s with inBuf := s.inBuf.writeSeq (off.toNat - inBase) (writtenBytes w v) }.SameBlock t) := by
  have hacc : accepts s.build w off = true := (accepts_iff _ _ _).2 hlegal
  have hsame := s.sameBlock_written rest .written
  rw [step_of_todo hm] at h
  simp only [State.perform, State.busWrite, hacc, if_true, State.acceptedWrite, hr,
    State.writeInBuf] at h
  cases h
  refine ⟨fun hb => ?_, fun hb => ?_⟩
  · rw [hsame.status, hb]
    exact hsame
  · rw [hsame.status, hb]
    exact hsame.writeInBuf _ _

/-- The bytes of a legal access that begins in `IN_BUF` lie there. -/
theorem IllegalAccess.not_inBuf {b : Build} {k : Nat} (h : ¬ IllegalAccess b w off)
    (hr : region off.toNat = .inBuf) (hk : k < w.bytes) : region (off.toNat + k) = .inBuf := by
  have hrange := region_eq_inBuf.1 hr
  have hbelow := IllegalAccess.not_below h hrange.2 hk
  exact region_eq_inBuf.2 (by omega)

/-- A read of the place of a write in `IN_BUF` gives the value back. -/
theorem readReply_of_stored (hlegal : ¬ IllegalAccess s.build w off)
    (hr : region off.toNat = .inBuf)
    (h : { s with inBuf := s.inBuf.writeSeq (off.toNat - inBase) (writtenBytes w v) }.SameBlock t) :
    t.readReply w off = .data w (v &&& BitVec.ofNat 32 (2 ^ (8 * w.bytes) - 1)) := by
  have hrange := region_eq_inBuf.1 hr
  rw [State.readReply_legal (h.build ▸ hlegal)]
  refine congrArg _ (memRead_of_bytes fun k hk => ?_)
  have hindex : off.toNat + k - inBase = off.toNat - inBase + k := by simp only [inBase]; omega
  rw [t.hostByte_inBuf (IllegalAccess.not_inBuf hlegal hr hk), hindex, h.inByte,
    s.inByte_writeSeq _ hk]

/-- Settles O44: a legal write in `IN_BUF` stores its bytes on an idle block, where each is found again,
and nothing on a busy one. -/
theorem inBufWritesStoreTheirBytes : Obligations.InBufWritesStoreTheirBytes := by
  refine ⟨fun s => ?_, fun s w off v rest _ hlo hhi hlegal hm => ?_⟩
  · obtain ⟨-, -, hengine, -⟩ := s.engineStep_frame
    exact ⟨hengine, fun hbuild i hi => readReply_inBuf s hbuild hi⟩
  · have hr : region off.toNat = .inBuf := region_eq_inBuf.2 (by omega)
    obtain ⟨t, hstep, htodo, hreplies⟩ := step_of_write hm
    rw [if_pos ((accepts_iff _ _ _).2 hlegal)] at hreplies
    obtain ⟨hbusy, hidle⟩ := block_of_inBufWrite hm hlegal hr hstep
    refine ⟨t, hstep, hreplies, htodo, hbusy, fun hb => ?_⟩
    have hstored := hidle hb
    refine ⟨fun k hk => ?_, fun i hi => ?_, readReply_of_stored hlegal hr hstored,
      { hstored with inBuf := rfl }⟩
    · rw [hstored.inByte]; exact s.inByte_writeSeq _ hk
    · rw [hstored.inByte]
      exact s.inByte_writeSeq_other _ (by rw [writtenBytes_length]; exact hi)

end Sys2Proof.Machine
end

section
/-! A wait for the completion of a running command (30_encoding.md R53, 43_control.md R82): an engine that
comes nearer to its completion with every step, polled at any pace. -/

namespace Sys2Proof.Machine

namespace State

variable {s t : State}

/-! ### The engine alone -/

/-- A bound on the steps to the completion, and 0 while idle: one step for the phase `CHECK`, one for each
group, of which there are no more than `ENG.N`, and one for the end. -/
def remaining (s : State) : Nat :=
  if s.status.busy then s.eng.n.toNat - s.eng.g.toNat + (if s.eng.phase = .check then 2 else 1) else 0

theorem SameBlock.remaining (h : s.SameBlock t) : t.remaining = s.remaining := by
  simp only [State.remaining, h.status, h.eng]

theorem remaining_idle (h : s.status.busy = false) : s.remaining = 0 := by simp [remaining, h]

theorem remaining_pos (h : s.status.busy = true) : 0 < s.remaining := by
  simp only [remaining, h, if_true]; split <;> omega

theorem remaining_complete (hb : s.status.busy = true) (ht : t.status.busy = false) :
    t.remaining < s.remaining := by
  rw [remaining_idle ht]; exact remaining_pos hb

/-- A group that is not the last takes `ENG.G` nearer to `ENG.N`. -/
theorem remaining_nextGroup (hb : s.status.busy = true) (ht : t.status = s.status)
    (hg : s.eng.g.toNat < s.eng.n.toNat) (htn : t.eng.n = s.eng.n) (htg : t.eng.g = s.eng.g + 1)
    (htp : t.eng.phase = s.eng.phase) : t.remaining < s.remaining := by
  have hn := s.eng.n.isLt
  have hone : (1 : Word).toNat = 1 := rfl
  have hnext : (s.eng.g + 1).toNat = s.eng.g.toNat + 1 := by rw [BitVec.toNat_add, hone]; omega
  simp only [remaining, ht, hb, htn, htg, htp, hnext, if_true]; omega

/-- The phase `CHECK` leads to the group loop. -/
theorem remaining_enterGroups (hb : s.status.busy = true) (hphase : s.eng.phase = .check) :
    { s with eng := { s.eng with phase := .groups } }.remaining < s.remaining := by
  simp [remaining, hb, hphase]

/-- Every pass of a running engine is nearer to the completion. -/
theorem remaining_runningStep (hb : s.status.busy = true) :
    s.runningStep.remaining < s.remaining := by
  rcases s.runningStep_cases with ⟨-, hp, heq⟩ | ⟨-, hp, heq⟩ | ⟨-, hp, heq⟩ | ⟨-, hp, heq⟩ <;>
    rw [heq]
  · exact remaining_enterGroups hb hp
  · rcases s.encodeGroup_cases with ⟨hn, bs, -, heq⟩ | ⟨-, bs, -, heq⟩ | ⟨-, heq⟩ <;> rw [heq]
    · exact remaining_nextGroup hb rfl (by omega) rfl rfl rfl
    · exact remaining_complete hb rfl
    · exact remaining_complete hb rfl
  · rcases s.decodeCheck_cases with ⟨-, heq⟩ | ⟨-, -, heq⟩ | ⟨-, -, heq⟩ <;> rw [heq]
    · exact remaining_complete hb rfl
    · exact remaining_complete hb rfl
    · exact remaining_enterGroups hb hp
  · rcases s.decodeGroup_cases with
      ⟨-, heq⟩ | ⟨hn, ⟨e, -, heq⟩ | ⟨ys, -, heq⟩ | ⟨ys, -, heq⟩⟩ <;> rw [heq]
    · exact remaining_complete hb rfl
    · exact remaining_complete hb rfl
    · exact remaining_complete hb rfl
    · exact remaining_nextGroup hb rfl (by omega) rfl rfl rfl

theorem remaining_engineStep_lt (hb : s.status.busy = true) :
    s.engineStep.remaining < s.remaining := by
  rw [engineStep_busy hb, (sameBlock_draw _).remaining]
  exact remaining_runningStep hb

theorem remaining_engineStep_le (s : State) : s.engineStep.remaining ≤ s.remaining := by
  cases hb : s.status.busy
  · rw [engineStep_idle hb]
  · exact Nat.le_of_lt (remaining_engineStep_lt hb)

theorem remaining_engineSteps_le (k : Nat) (s : State) :
    (engineSteps k s).remaining ≤ s.remaining := by
  induction k generalizing s with
  | zero => exact Nat.le_refl _
  | succ k ih => exact (ih s.engineStep).trans s.remaining_engineStep_le

theorem engineSteps_add (j k : Nat) (s : State) :
    engineSteps (j + k) s = engineSteps k (engineSteps j s) := by
  induction j generalizing s with
  | zero => rw [Nat.zero_add]; rfl
  | succ j ih => rw [Nat.add_right_comm]; exact ih s.engineStep

theorem engineSteps_idle (k : Nat) (h : s.status.busy = false) : engineSteps k s = s := by
  induction k with
  | zero => rfl
  | succ k ih => rw [engineSteps, engineStep_idle h, ih]

theorem SameBlock.engineSteps (k : Nat) (h : s.SameBlock t) :
    (State.engineSteps k s).SameBlock (State.engineSteps k t) := by
  induction k generalizing s t with
  | zero => exact h
  | succ k ih => exact ih h.engineStep

theorem Inv.engineSteps (k : Nat) (hi : s.Inv) : (State.engineSteps k s).Inv := by
  induction k generalizing s with
  | zero => exact hi
  | succ k ih => exact ih hi.engineStep

/-- Once idle the engine stays where it first became idle: at the completion. -/
theorem engineSteps_eq_first_idle {i : Nat} (h : (engineSteps i s).status.busy = false) :
    ∃ j, (∀ i, i < j → (engineSteps i s).status.busy = true) ∧
      (engineSteps j s).status.busy = false ∧ engineSteps i s = engineSteps j s := by
  have hex : ∃ j, (engineSteps j s).status.busy = false := ⟨i, h⟩
  have hidle := Nat.find_spec hex
  refine ⟨Nat.find hex, fun k hk => by simpa using Nat.find_min hex hk, hidle, ?_⟩
  obtain ⟨d, hd⟩ := Nat.exists_eq_add_of_le (Nat.find_min' hex h)
  rw [hd, engineSteps_add, engineSteps_idle d hidle]

/-- A command runs, or one has completed. -/
def RunsOrDone (s : State) : Prop := s.status.busy = false → s.status.done = true

theorem RunsOrDone.engineStep (h : s.RunsOrDone) : s.engineStep.RunsOrDone := by
  rcases s.engineStep_status with ⟨hst, -⟩ | ⟨-, e, hst⟩
  · rw [RunsOrDone, hst]; exact h
  · rw [RunsOrDone, hst]; exact fun _ => rfl

theorem RunsOrDone.engineSteps (k : Nat) (h : s.RunsOrDone) :
    (State.engineSteps k s).RunsOrDone := by
  induction k generalizing s with
  | zero => exact h
  | succ k ih => exact ih h.engineStep

theorem SameBlock.runsOrDone (h : s.SameBlock t) (hs : s.RunsOrDone) : t.RunsOrDone := by
  rw [RunsOrDone, h.status]; exact hs

/-- With the invariant the result is the block's: every byte of it has been written. -/
theorem SameBlock.result (h : s.SameBlock t) (hi : s.Inv) : t.result = s.result := by
  have hbytes : t.outBytes s.outLen.toNat = s.outBytes s.outLen.toNat :=
    List.map_congr_left fun i hlt => by
      obtain ⟨b, hb⟩ := Option.isSome_iff_exists.1 (hi.resultWritten i (List.mem_range.1 hlt))
      rw [s.outByte_of_written hb, t.outByte_of_written (h.outBuf ▸ hb)]
  simp only [State.result, h.status, h.outLen, hbytes]

end State

/-! ### The poll -/

variable {s : State} {off : Offset} {mask v : Word} {pace : List Nat} {rest : List Event}

/-- A poll is one read. It is over when its condition is met, and otherwise stands again after engine
steps at its pace. -/
theorem step_of_poll (hm : s.todo = .poll off mask v pace :: rest) :
    ∃ t, step s = .next t ∧ s.SameBlock t ∧ t.replies = s.readReply .w32 off :: s.replies ∧
      t.todo = if pollMet mask v (s.readReply .w32 off) then rest
        else List.replicate (pollPace pace).1 .engine ++ .poll off mask v (pollPace pace).2 :: rest := by
  refine ⟨{ s with todo := rest }.pollRead off mask v pace, by rw [step_of_todo hm]; rfl,
    (s.sameBlock_todo rest).trans (State.sameBlock_pollRead _ off mask v pace), ?_, ?_⟩
  · simp only [State.pollRead]
    split <;> exact State.busRead_replies _ _ _
  · have hread : { s with todo := rest }.readReply .w32 off = s.readReply .w32 off := rfl
    simp only [State.pollRead, hread]
    split
    · exact State.busRead_todo _ _ _
    · rw [State.busRead_todo]

/-- `WAITDONE` waits for `BUSY = 0` and `DONE = 1` (R53). -/
theorem Status.word_and_three (st : Status) :
    st.word &&& 3 = 2 ↔ st.busy = false ∧ st.done = true := by
  have bits : ∀ (e : BitVec 4) (d b : Bool),
      (0#24 ++ e ++ 0#2 ++ BitVec.ofBool d ++ BitVec.ofBool b) &&& 3#32 = 2#32 ↔
        b = false ∧ d = true := by decide
  exact bits st.err.bits st.done st.busy

theorem pollMet_waitDone (s : State) :
    pollMet 3 2 (s.readReply .w32 0x04) = true ↔ s.status.busy = false ∧ s.status.done = true := by
  rw [readReply_status, pollMet, beq_iff_eq, Status.word_and_three]

/-- The engine's moves are its steps. -/
theorem run_engines (k : Nat) {s : State} (hm : s.todo = List.replicate k .engine ++ rest) :
    ∃ t, run k s = .next t ∧ t.todo = rest ∧ (State.engineSteps k s).SameBlock t := by
  induction k generalizing s with
  | zero => exact ⟨s, rfl, hm, State.SameBlock.refl s⟩
  | succ k ih =>
    rw [List.replicate_succ, List.cons_append] at hm
    have hsame := (s.sameBlock_todo (List.replicate k Event.engine ++ rest)).engineStep
    have hstep := step_of_todo hm
    obtain ⟨-, -, -, -, htodo, -⟩ :=
      { s with todo := List.replicate k Event.engine ++ rest }.engineStep_frame
    obtain ⟨t, hrun, hrest, ht⟩ := ih htodo
    exact ⟨t, (run_succ hstep).trans hrun, hrest, (hsame.engineSteps k).trans ht⟩

/-- Between two reads of a poll either the given pace gets shorter or the engine takes a step. -/
theorem pollPace_progress (pace : List Nat) (hb : s.status.busy = true) :
    (pollPace pace).2.length + (State.engineSteps (pollPace pace).1 s).remaining <
      pace.length + s.remaining := by
  cases pace with
  | nil => exact Nat.add_lt_add_left (State.remaining_engineStep_lt hb) 0
  | cons k pace =>
    have := State.remaining_engineSteps_le k s
    simp only [pollPace, List.length_cons]; omega

/-- `WAITDONE` ends when a command runs or has completed, and finds the block where some number of engine
steps takes it. -/
theorem waitDone_ends {s : State} {pace : List Nat} (hs : s.RunsOrDone)
    (hm : s.todo = .poll 0x04 3 2 pace :: rest) :
    ∃ k i u, run k s = .next u ∧ u.todo = rest ∧ u.status.busy = false ∧ u.status.done = true ∧
      (State.engineSteps i s).SameBlock u := by
  induction hn : pace.length + s.remaining using Nat.strong_induction_on generalizing s pace with
  | _ n ih =>
    obtain ⟨t, hstep, hsame, -, htodo⟩ := step_of_poll hm
    cases hb : s.status.busy
    · have hdone := hs hb
      rw [if_pos ((pollMet_waitDone s).2 ⟨hb, hdone⟩)] at htodo
      rw [← hsame.status] at hb hdone
      exact ⟨1, 0, t, run_succ hstep, htodo, hb, hdone, hsame⟩
    · have hunmet : ¬ pollMet 3 2 (s.readReply .w32 0x04) = true := by
        rw [pollMet_waitDone, hb]; simp
      rw [if_neg hunmet] at htodo
      obtain ⟨t', hrun, htodo', hsame'⟩ := run_engines _ htodo
      have hsteps := (hsame.engineSteps (pollPace pace).1).trans hsame'
      have hless := pollPace_progress pace hb
      rw [← hsteps.remaining, hn] at hless
      obtain ⟨k, i, u, hrun', hrest, hidle, hdone, hu⟩ :=
        ih _ hless (hsteps.runsOrDone (hs.engineSteps _)) htodo' rfl
      refine ⟨(pollPace pace).1 + k + 1, (pollPace pace).1 + i, u, ?_, hrest, hidle, hdone, ?_⟩
      · rw [run_succ hstep, run_add hrun, hrun']
      · rw [State.engineSteps_add]
        exact (hsteps.engineSteps i).trans hu

/-- Settles O51: the wait ends, the block is idle there, and the engine alone is idle from its completion
on. -/
theorem waitDoneEndsAtCompletion : Obligations.WaitDoneEndsAtCompletion := by
  refine ⟨rfl, fun s pace hi hb hm => ?_⟩
  obtain ⟨k, i, u, hrun, htodo, hidle, hdone, hsame⟩ :=
    waitDone_ends (fun h => by rw [hb] at h; cases h) hm
  obtain ⟨j, hrunning, hend, heq⟩ := State.engineSteps_eq_first_idle (hsame.status ▸ hidle)
  rw [heq] at hsame
  exact ⟨k, j, u, hrun, htodo, hidle, hdone, hrunning, hend, hsame, hsame.result (hi.engineSteps j)⟩

end Sys2Proof.Machine
end

section
/-! The command word as its two fields, and the opcode map by the code (30_encoding.md R48 to R52). What
the decoder and the rows of the map read of a word is `OP`; a fact of the 16 codes is then closed by
`decide`. -/

namespace Sys2Proof

variable {w : Word} {op : BitVec 4} {i : Instr}

/-! ### The fields of a word -/

@[simp] theorem opField_commandWord (ign : BitVec 28) (op : BitVec 4) :
    opField (commandWord ign op) = op := BitVec.extractLsb'_append_eq_right

theorem commandWord_inj {ign : BitVec 28} {a b : BitVec 4} :
    commandWord ign a = commandWord ign b ↔ a = b :=
  ⟨fun h => by simpa using congrArg opField h, congrArg (commandWord ign)⟩

theorem commandWord_fields (w : Word) : commandWord (w.extractLsb' 4 28) (opField w) = w := by
  rw [commandWord, opField,
    BitVec.extractLsb'_append_extractLsb'_eq_extractLsb' (show 4 = 0 + 4 from rfl)]
  exact BitVec.extractLsb'_eq_self

/-- A mask within `OP` takes away `IGN`. -/
theorem and_commandWord_zero (w : Word) (m : BitVec 4) :
    w &&& commandWord 0 m = commandWord 0 (opField w &&& m) := by
  calc w &&& commandWord 0 m
      = commandWord (w.extractLsb' 4 28) (opField w) &&& commandWord 0 m := by
        rw [commandWord_fields]
    _ = commandWord (w.extractLsb' 4 28 &&& 0) (opField w &&& m) := BitVec.and_append
    _ = commandWord 0 (opField w &&& m) := congrArg (commandWord · _) BitVec.and_zero

theorem and_commandWord_zero_eq_iff {m p : BitVec 4} :
    w &&& commandWord 0 m = commandWord 0 p ↔ opField w &&& m = p := by
  rw [and_commandWord_zero, commandWord_inj]

theorem and_opMask (w : Word) : w &&& 0xF = commandWord 0 (opField w) :=
  (and_commandWord_zero w 0xF).trans (congrArg (commandWord 0) BitVec.and_allOnes)

/-! ### The decoder -/

/-- The decoder puts the four bytes of a word together again (R32, R48). -/
@[simp] theorem decode_wordBytes (w : Word) : decode (wordBytes w) = .ok (decodeWord w) :=
  congrArg (fun v => Except.ok (decodeWord v)) (Machine.append_wordByte w)

@[simp] theorem decodeWord_commandWord (ign : BitVec 28) (op : BitVec 4) :
    decodeWord (commandWord ign op) = decodeOp op := congrArg decodeOp (opField_commandWord ign op)

theorem decodeOp_wellFormed (op : BitVec 4) : (decodeOp op).WellFormed := by
  revert op; decide

theorem opcode_decodeOp (op : BitVec 4) : opcode (decodeOp op) = op := by
  revert op; decide

theorem decodeOp_opcode (hi : i.WellFormed) : decodeOp (opcode i) = i := by
  cases i with
  | nop | encode | decode | clear => rfl
  | reserved47 op => revert op; decide
  | reserved8F op => revert op; decide

/-- A code selects a command exactly when it is the command's own. -/
theorem decodeOp_eq_iff (hi : i.WellFormed) : decodeOp op = i ↔ op = opcode i :=
  ⟨fun h => by rw [← h, opcode_decodeOp], fun h => by rw [h, decodeOp_opcode hi]⟩

theorem decodeOp_of_le_seven : 0x4#4 ≤ op → op ≤ 0x7#4 → decodeOp op = .reserved47 op := by
  revert op; decide

theorem decodeOp_of_eight_le : 0x8#4 ≤ op → decodeOp op = .reserved8F op := by
  revert op; decide

/-- The codes 0x4 to 0xF are reserved (R50). -/
theorem decodeOp_of_four_le (h : 0x4#4 ≤ op) :
    decodeOp op = .reserved47 op ∨ decodeOp op = .reserved8F op := by
  by_cases h7 : op ≤ 0x7#4
  · exact .inl (decodeOp_of_le_seven h h7)
  · exact .inr (decodeOp_of_eight_le (by bv_omega))

/-- Settles O1: the four bytes are the word again, its field `OP` is the code, and codes and well-formed
commands correspond one to one. -/
theorem decodeInvertsEncode : Obligations.DecodeInvertsEncode := by
  intro i hi
  have word : ∀ ign, decode (wordBytes (commandWord ign (opcode i))) = .ok i := fun ign => by
    rw [decode_wordBytes, decodeWord_commandWord, decodeOp_opcode hi]
  refine ⟨word 0, word, fun w hw => ?_⟩
  rw [← (decodeOp_eq_iff hi).1 hw, commandWord_fields]

/-! ### The opcode map -/

/-- Every row's mask lies within `OP`. -/
theorem and_rowMask {r : OpRow} (hr : r ∈ opRows) (w : Word) :
    w &&& r.mask = commandWord 0 (opField w) &&& r.mask := by
  have within : ∀ r ∈ opRows, r.mask = commandWord 0 (opField r.mask) := by decide
  rw [within r hr, and_commandWord_zero, and_commandWord_zero, opField_commandWord]

theorem rows_of_commandWord (op : BitVec 4) :
    (opRows.filter fun r => commandWord 0 op &&& r.mask == r.pat).map (·.mnemonic) =
      [mnemonic (decodeOp op)] := by
  revert op; decide

/-- Exactly one row of the opcode map matches a word: that of its command (R51). -/
theorem rows_of_word (w : Word) :
    (opRows.filter fun r => w &&& r.mask == r.pat).map (·.mnemonic) = [mnemonic (decodeWord w)] := by
  rw [List.filter_congr fun r hr => by rw [and_rowMask hr w]]
  exact rows_of_commandWord (opField w)

theorem encode_decodeWord (w : Word) : encode (decodeWord w) = commandWord 0 (opField w) :=
  congrArg (commandWord 0) (opcode_decodeOp (opField w))

/-- The row of one code: its words are those with the bits 3:0 of the command's word. -/
theorem and_opMask_eq_encode_iff (hi : i.WellFormed) : w &&& 0xF = encode i ↔ decodeWord w = i := by
  rw [decodeWord, decodeOp_eq_iff hi, and_opMask, encode, commandWord_inj]

theorem and_mask_eq_reserved47_iff : w &&& 0xC = 0x4 ↔ ∃ c, decodeWord w = .reserved47 c := by
  have codes : ∀ op : BitVec 4, op &&& 0xC = 0x4 ↔ ∃ c, decodeOp op = .reserved47 c := by decide
  exact and_commandWord_zero_eq_iff.trans (codes (opField w))

theorem and_mask_eq_reserved8F_iff : w &&& 0x8 = 0x8 ↔ ∃ c, decodeWord w = .reserved8F c := by
  have codes : ∀ op : BitVec 4, op &&& 0x8 = 0x8 ↔ ∃ c, decodeOp op = .reserved8F c := by decide
  exact and_commandWord_zero_eq_iff.trans (codes (opField w))

theorem commandWord_zero_eq_setWidth (op : BitVec 4) : commandWord 0 op = op.setWidth 32 := by
  revert op; decide

/-- Settles O3: each row by the code that its mask leaves of the word. -/
theorem opcodeMapSelectsCommand : Obligations.OpcodeMapSelectsCommand := by
  refine ⟨by decide, fun w => ?rows⟩
  exact ⟨and_opMask_eq_encode_iff (i := .nop) rfl, and_opMask_eq_encode_iff (i := .encode) rfl,
    and_opMask_eq_encode_iff (i := .decode) rfl, and_opMask_eq_encode_iff (i := .clear) rfl,
    and_mask_eq_reserved47_iff, and_mask_eq_reserved8F_iff,
    fun _ => (encode_decodeWord w).trans (commandWord_zero_eq_setWidth _),
    congrArg decodeOp, congrArg decodeOp, congrArg decodeOp, congrArg decodeOp,
    fun h => decodeOp_of_le_seven h.1 h.2, decodeOp_of_eight_le⟩

/-- Settles O4: the words are closed terms, which the decoder reads by evaluation. -/
theorem writtenOutWordsDecode : Obligations.WrittenOutWordsDecode := by
  unfold Obligations.WrittenOutWordsDecode; decide

end Sys2Proof
end

section
/-! A command at its issue: what it changes and what the step that writes its word runs (R48, R49, R80). -/

namespace Sys2Proof.Machine

/-- A reserved code completes at once with `BAD_COMMAND` (R86). -/
theorem exec_reserved {s : State} {op : BitVec 4} (h : 0x4#4 ≤ op) (hidle : s.status.busy = false) :
    exec (decodeOp op) s = .next s.rejectCommand := by
  rw [exec_eq_issue, State.issue_idle hidle]
  rcases decodeOp_of_four_le h with h | h <;> rw [h] <;> rfl

/-- Settles O2: what the decoder and every row read of a word is its code. -/
theorem everyWordHasOneMeaning : Obligations.EveryWordHasOneMeaning := by
  refine fun w => ⟨decodeOp_wellFormed _, rows_of_word w, ?_, fun h s hidle => exec_reserved h hidle⟩
  rw [and_opMask, decodeWord_commandWord, decodeWord]

/-- Outside `ENCODE` and `DECODE` an issue leaves the engine alone. -/
theorem effect_eng {i : Instr} (he : i ≠ .encode) (hd : i ≠ .decode) (s : State) :
    (effect i s).eng = s.eng := by
  cases i with
  | encode => exact absurd rfl he
  | decode => exact absurd rfl hd
  | nop | clear | reserved47 _ | reserved8F _ => rfl

/-- What no command changes, whether it is issued or ignored. -/
theorem exec_frame {i : Instr} {s t : State} (h : exec i s = .next t) :
    t.build = s.build ∧ t.inLen = s.inLen ∧ t.inBuf = s.inBuf ∧ t.outBuf = s.outBuf ∧
    t.era = s.era ∧ t.todo = s.todo ∧ t.replies = s.replies ∧ t.fresh = s.fresh := by
  rw [exec_eq] at h; cases h
  split
  · exact ⟨rfl, rfl, rfl, rfl, rfl, rfl, rfl, rfl⟩
  · exact effect_frame i s

/-- A command other than `ENCODE` and `DECODE` starts and stops no engine. -/
theorem exec_engine {i : Instr} {s t : State} (he : i ≠ .encode) (hd : i ≠ .decode)
    (h : exec i s = .next t) : t.eng = s.eng ∧ t.status.busy = s.status.busy := by
  rw [exec_eq] at h; cases h
  cases hb : s.status.busy
  · have hidle : ¬ (effect i s).status.busy = true := fun hset => by
      rcases ((effect_busy_iff hb i).1 hset).1 with hi | hi
      · exact he hi
      · exact hd hi
    exact ⟨effect_eng he hd s, Bool.eq_false_iff.2 hidle⟩
  · exact ⟨rfl, hb⟩

/-- Settles O16: the frame of an issue, and the buffer bytes that depend on it. -/
theorem commandFrame : Obligations.CommandFrame := by
  intro i s t h
  obtain ⟨hbuild, hlen, hin, hout, hera, htodo, hreplies, hfresh⟩ := exec_frame h
  refine ⟨hlen, hbuild, hera, htodo, hreplies, hfresh, fun a => by rw [hin, hout]; exact ⟨rfl, rfl⟩,
    fun a => ⟨State.inByte_congr hin hera a, by simp only [State.outByte, hout, hfresh]⟩,
    fun he hd => exec_engine he hd h, ?_⟩
  rintro rfl
  rw [exec_eq, effect, id, ite_self] at h; cases h
  exact ⟨rfl, rfl⟩

/-- Settles O5: a 4-byte write of a word to `CMD` is always accepted, and its bytes decode to the word's
command. -/
theorem stepRunsWrittenCommand : Obligations.StepRunsWrittenCommand := by
  constructor
  · intro s v rest i hm hi
    rw [decode_wordBytes] at hi; cases hi
    exact step_of_commandWrite hm
  · intro s nbits w i hi
    rw [decodeTableWord, decode_wordBytes] at hi; cases hi
    exact step_of_commandWrite rfl

/-- Settles O50: a read that answers data meets the condition or not, and `BusError` never does. -/
theorem pollRepeatsUntilItsConditionHolds : Obligations.PollRepeatsUntilItsConditionHolds := by
  intro s off mask v pace rest hm
  obtain ⟨t, hstep, hsame, hreplies, htodo⟩ := step_of_poll hm
  refine ⟨t, hstep, hsame, hreplies, fun d hd hmet => ?_, fun hnot => ?_⟩
  · rwa [hd, if_pos (by rw [pollMet, hmet, beq_self_eq_true])] at htodo
  · have hunmet : ¬ pollMet mask v (s.readReply .w32 off) = true := by
      by_cases hill : IllegalAccess s.build .w32 off
      · rw [State.readReply_illegal hill]; exact Bool.false_ne_true
      · rw [State.readReply_legal hill, pollMet, beq_iff_eq]
        exact hnot _ (State.readReply_legal hill)
    rw [if_neg hunmet] at htodo
    exact ⟨_, _, htodo⟩

end Sys2Proof.Machine
end

section
/-! The forward and inverse tables: the characters of each run of the alphabet, and what one table reads
of the other's entries (R54 to R58). The tables are literals, so each fact about their entries is read off
them by `decide`, once. -/

namespace Sys2Proof.Machine

variable {s : Sextet}

/-! ### The runs of the alphabet (R54) -/

theorem toNat_fwd_upper : s.toNat ≤ 25 → (fwd s).toNat = 0x41 + s.toNat := by
  revert s; decide

theorem toNat_fwd_lower :
    26 ≤ s.toNat → s.toNat ≤ 51 → (fwd s).toNat = 0x61 + (s.toNat - 26) := by
  revert s; decide

theorem toNat_fwd_digit :
    52 ≤ s.toNat → s.toNat ≤ 61 → (fwd s).toNat = 0x30 + (s.toNat - 52) := by
  revert s; decide

/-- Settles O17: the three runs, then `+` and `/`, each the entry of one value. -/
theorem forwardTableClosedForm : Obligations.ForwardTableClosedForm := by
  refine fun s => ⟨toNat_fwd_upper, toNat_fwd_lower, toNat_fwd_digit, fun plus => ?_, fun slash => ?_⟩
  · rw [BitVec.eq_of_toNat_eq (y := (62 : Sextet)) plus]; rfl
  · rw [BitVec.eq_of_toNat_eq (y := (63 : Sextet)) slash]; rfl

/-! ### One table after the other (R58) -/

/-- `INV` reads back the value of every character of `FWD`. -/
theorem inv_fwd (s : Sextet) : inv ((fwd s).setWidth 7) = s.setWidth 8 := by
  revert s; decide

/-- A code is the character of its entry of `INV`, or its entry is the sentinel. -/
theorem fwd_inv_or_sentinel (c : Code) :
    fwd ((inv c).setWidth 6) = c.setWidth 8 ∨ inv c = sentinel := by
  revert c; decide

/-- A character of the alphabet is a member in the sense of R57. -/
theorem inv_fwd_lt (s : Sextet) : (inv ((fwd s).setWidth 7)).toNat < 64 := by
  rw [inv_fwd, BitVec.toNat_setWidth_of_le (by decide)]; exact s.isLt

theorem fwd_inv {c : Code} (h : (inv c).toNat < 64) : fwd ((inv c).setWidth 6) = c.setWidth 8 := by
  refine (fwd_inv_or_sentinel c).resolve_right fun hs => ?_
  rw [hs] at h; exact absurd h (by decide)

theorem inv_eq_sentinel {c : Code} (h : ¬ (inv c).toNat < 64) : inv c = sentinel := by
  refine (fwd_inv_or_sentinel c).resolve_left fun hc => h ?_
  have char : (fwd ((inv c).setWidth 6)).setWidth 7 = c := by
    rw [hc, BitVec.setWidth_setWidth_of_le c (by decide), BitVec.setWidth_eq]
  rw [← char]; exact inv_fwd_lt _

/-- Settles O18: each table after the other; the number of members is counted in the table. -/
theorem tablesAreInverse : Obligations.TablesAreInverse :=
  ⟨inv_fwd, fun _ => fwd_inv, by decide, fun _ => inv_eq_sentinel, rfl⟩

end Sys2Proof.Machine
end

section
/-! Encoded text (41_encode.md R59 to R64): the slicer and the reassembler bit by bit, the characters of an
encoded sequence, its groups in place, and the decoder on its groups (R66). -/

namespace Sys2Proof.Machine

/-! ### The slicer and the reassembler -/

/-- Settles O19: bit by bit, each of the four values reads its place of the word. -/
theorem sliceCutsTheGroupWord : Obligations.SliceCutsTheGroupWord := by
  intro b0 b1 b2 w
  simp only [slice, Prod.mk.injEq, w]
  refine ⟨?_, ?_, ?_, ?_⟩ <;> ext i hi <;> grind

/-- The three bytes are put together again from their four values. -/
theorem reassemble_slice (b0 b1 b2 : Byte) :
    reassemble (slice b0 b1 b2).1 (slice b0 b1 b2).2.1 (slice b0 b1 b2).2.2.1 (slice b0 b1 b2).2.2.2 =
      (b0, b1, b2) := by
  simp only [slice, reassemble, Prod.mk.injEq]
  refine ⟨?_, ?_, ?_⟩ <;> ext i hi <;> grind

/-- The first byte does not depend on the last two values. -/
theorem reassemble_slice_fst (b0 b1 b2 : Byte) (v2 v3 : Sextet) :
    (reassemble (slice b0 b1 b2).1 (slice b0 b1 b2).2.1 v2 v3).1 = b0 :=
  congrArg Prod.fst (reassemble_slice b0 b1 b2)

/-- The second byte does not depend on the last value. -/
theorem reassemble_slice_snd (b0 b1 b2 : Byte) (v3 : Sextet) :
    (reassemble (slice b0 b1 b2).1 (slice b0 b1 b2).2.1 (slice b0 b1 b2).2.2.1 v3).2.1 = b1 :=
  congrArg (·.2.1) (reassemble_slice b0 b1 b2)

/-! ### The characters of an encoded sequence -/

theorem fwd_ascii (s : Sextet) : (fwd s).toNat < 0x80 := by revert s; decide

theorem fwd_ne_padChar (s : Sextet) : fwd s ≠ padChar := by revert s; decide

theorem encGroup_three (b0 b1 b2 : Byte) : encGroup b0 b1 b2 3 =
    [fwd (slice b0 b1 b2).1, fwd (slice b0 b1 b2).2.1, fwd (slice b0 b1 b2).2.2.1,
      fwd (slice b0 b1 b2).2.2.2] := rfl

theorem encGroup_two (b0 b1 b2 : Byte) : encGroup b0 b1 b2 2 =
    [fwd (slice b0 b1 b2).1, fwd (slice b0 b1 b2).2.1, fwd (slice b0 b1 b2).2.2.1, padChar] := rfl

theorem encGroup_one (b0 b1 b2 : Byte) : encGroup b0 b1 b2 1 =
    [fwd (slice b0 b1 b2).1, fwd (slice b0 b1 b2).2.1, padChar, padChar] := rfl

theorem encodeText_length (b : List Byte) : (encodeText b).length = 4 * ((b.length + 2) / 3) := by
  induction b using encodeText.induct with
  | case1 b0 b1 b2 rest ih =>
    simp only [encodeText, List.length_append, encGroup_length, ih, List.length_cons]; omega
  | case2 b0 b1 => simp [encodeText]
  | case3 b0 => simp [encodeText]
  | case4 => rfl

theorem encodeText_ascii (b : List Byte) : ∀ c ∈ encodeText b, c.toNat < 0x80 := by
  have hpad : padChar.toNat < 0x80 := by decide
  induction b using encodeText.induct with
  | case1 b0 b1 b2 rest ih => simpa [encodeText, encGroup_three, fwd_ascii] using ih
  | case2 b0 b1 => simp [encodeText, encGroup_two, fwd_ascii, hpad]
  | case3 b0 => simp [encodeText, encGroup_one, fwd_ascii, hpad]
  | case4 => simp [encodeText]

/-- A sequence of whole groups and what follows it are encoded apart. -/
theorem encodeText_append {pre : List Byte} (h : pre.length % 3 = 0) (post : List Byte) :
    encodeText (pre ++ post) = encodeText pre ++ encodeText post := by
  induction pre using encodeText.induct with
  | case1 b0 b1 b2 rest ih =>
    have hrest : rest.length % 3 = 0 := by simp only [List.length_cons] at h; omega
    simp only [List.cons_append, encodeText, ih hrest, List.append_assoc]
  | case2 b0 b1 => cases h
  | case3 b0 => cases h
  | case4 => rfl

/-- Whole groups have no padding (R63). -/
theorem padChar_notMem_encodeText {b : List Byte} (h : b.length % 3 = 0) : padChar ∉ encodeText b := by
  have hfwd (s : Sextet) : padChar ≠ fwd s := (fwd_ne_padChar s).symm
  induction b using encodeText.induct with
  | case1 b0 b1 b2 rest ih =>
    have hrest : rest.length % 3 = 0 := by simp only [List.length_cons] at h; omega
    simp [encodeText, encGroup_three, hfwd, ih hrest]
  | case2 b0 b1 => cases h
  | case3 b0 => cases h
  | case4 => simp [encodeText]

/-- A sequence is its whole groups and the bytes of a short one. -/
theorem exists_wholeGroups (b : List Byte) :
    ∃ pre post, b = pre ++ post ∧ pre.length % 3 = 0 ∧ post.length = b.length % 3 := by
  refine ⟨b.take (b.length - b.length % 3), b.drop (b.length - b.length % 3), ?_, ?_, ?_⟩
  · exact (List.take_append_drop _ b).symm
  · rw [List.length_take]; omega
  · rw [List.length_drop]; omega

/-- Settles O22: the text is that of the whole groups, which has no padding, and that of the short one. -/
theorem encodedLengthAndPadding : Obligations.EncodedLengthAndPadding := by
  intro b t
  have hfwd (s : Sextet) : padChar ≠ fwd s := (fwd_ne_padChar s).symm
  obtain ⟨pre, post, hb, hpre, hpost⟩ := exists_wholeGroups b
  have htext : t = encodeText pre ++ encodeText post := by rw [← encodeText_append hpre, ← hb]
  have hnone := padChar_notMem_encodeText hpre
  refine ⟨encodeText_length b, encodeText_ascii b, padChar_notMem_encodeText, fun hone => ?_, fun htwo => ?_⟩
  · obtain ⟨b0, rfl⟩ := List.length_eq_one_iff.1 (hpost.trans hone)
    refine ⟨encodeText pre ++ [fwd (slice b0 0 0).1, fwd (slice b0 0 0).2.1], ?_, ?_⟩
    · rw [htext, encodeText, encGroup_one]; simp
    · simp [hnone, hfwd]
  · obtain ⟨b0, b1, rfl⟩ := List.length_eq_two.1 (hpost.trans htwo)
    refine ⟨encodeText pre ++
      [fwd (slice b0 b1 0).1, fwd (slice b0 b1 0).2.1, fwd (slice b0 b1 0).2.2.1], ?_, ?_⟩
    · rw [htext, encodeText, encGroup_two]; simp
    · simp [hnone, hfwd]

/-- Settles O23: what follows whole groups is encoded as if it stood alone. -/
theorem encodedGroupsInPlace : Obligations.EncodedGroupsInPlace := by
  intro pre post b0 b1 b2 hpre
  refine ⟨?_, encodeText_append hpre _, encodeText_append hpre _⟩
  rw [encodeText_append hpre, encodeText, List.append_assoc]

/-! ### The decoder's checks and its loop (R67, R68, R75) -/

theorem decodeText_of_badLength (policy : PadPolicy) {text : List Byte} (h : text.length % 4 ≠ 0) :
    decodeText policy text = .error .invalidLength := by simp [decodeText, h]

theorem decodeText_of_notAscii (policy : PadPolicy) {text : List Byte} (hlen : text.length % 4 = 0)
    (h : ∃ b ∈ text, 0x80 ≤ b.toNat) : decodeText policy text = .error .notAscii := by
  have hany : text.any notAsciiByte = true := by simpa [notAsciiByte] using h
  simp [decodeText, hlen, hany]

/-- The checks over the whole text leave the groups to decide. -/
theorem decodeText_of_checked (policy : PadPolicy) {text : List Byte} (hlen : text.length % 4 = 0)
    (hascii : ∀ b ∈ text, b.toNat < 0x80) : decodeText policy text = decodeGroups policy text := by
  have hany : text.any notAsciiByte = false :=
    List.any_eq_false.2 fun b hb => by simpa [notAsciiByte] using hascii b hb
  simp [decodeText, hlen, hany]

/-- The bytes of a group that goes on stand before those of the rest. -/
theorem decodeGroups_more {policy : PadPolicy} {c0 c1 c2 c3 : Byte} {rest ys : List Byte}
    (hres : decGroup policy rest.isEmpty c0 c1 c2 c3 = .more ys) :
    decodeGroups policy (c0 :: c1 :: c2 :: c3 :: rest) = (decodeGroups policy rest).map (ys ++ ·) := by
  rw [decodeGroups, hres]; cases decodeGroups policy rest <;> rfl

/-! ### The decoder on encoded text -/

@[simp] theorem isMember_code_fwd (s : Sextet) : isMember (code (fwd s)) = true :=
  decide_eq_true (inv_fwd_lt s)

@[simp] theorem code_padChar : code padChar = padCode := rfl

/-- A character of the alphabet stands for its value. -/
@[simp] theorem sextetOf_fwd (s : Sextet) : sextetOf (fwd s) = s := by
  rw [sextetOf, code, inv_fwd]; ext i hi; grind

section

variable (policy : PadPolicy) (last : Bool) (v0 v1 v2 v3 : Sextet)

/-- A group of characters of the alphabet gives its three bytes (R70). -/
theorem decGroup_of_three : decGroup policy last (fwd v0) (fwd v1) (fwd v2) (fwd v3) =
    .more [(reassemble v0 v1 v2 v3).1, (reassemble v0 v1 v2 v3).2.1, (reassemble v0 v1 v2 v3).2.2] := by
  simp [decGroup, validateGroup, paddingMisplaced, fwd_ne_padChar]

/-- One `=` at the end of the final group leaves two bytes, under both policies (R72, R74). -/
theorem decGroup_of_two : decGroup policy true (fwd v0) (fwd v1) (fwd v2) padChar =
    .stop [(reassemble v0 v1 v2 v3).1, (reassemble v0 v1 v2 v3).2.1] := by
  simp [decGroup, validateGroup, paddingMisplaced, fwd_ne_padChar, reassemble]

/-- Two leave one byte. -/
theorem decGroup_of_one : decGroup policy true (fwd v0) (fwd v1) padChar padChar =
    .stop [(reassemble v0 v1 v2 v3).1] := by
  simp [decGroup, validateGroup, paddingMisplaced, reassemble]

theorem decodeGroups_encodeText (b : List Byte) : decodeGroups policy (encodeText b) = .ok b := by
  induction b using encodeText.induct with
  | case1 b0 b1 b2 rest ih =>
    simp [encodeText, encGroup_three, decodeGroups, decGroup_of_three, reassemble_slice, ih]
  | case2 b0 b1 =>
    simp [encodeText, encGroup_two, decodeGroups, decGroup_of_two policy _ _ _ 0, reassemble_slice_fst,
      reassemble_slice_snd]
  | case3 b0 =>
    simp [encodeText, encGroup_one, decodeGroups, decGroup_of_one policy _ _ 0 0, reassemble_slice_fst]
  | case4 => rfl

end

/-- Settles O27: encoded text passes the checks, and its groups give the bytes back. -/
theorem decodeInvertsEncodeOnText : Obligations.DecodeInvertsEncodeOnText := by
  intro policy b
  have hlen : (encodeText b).length % 4 = 0 := by rw [encodeText_length]; omega
  rw [decodeText_of_checked policy hlen (encodeText_ascii b), decodeGroups_encodeText]

end Sys2Proof.Machine
end

section
/-! A command that the engine runs alone, from its issue to its completion (41_encode.md R64, 42_decode.md
R75, 43_control.md R80 to R82): what has been read and written after each group, and the result that a
completion shows. -/

namespace Sys2Proof.Machine

/-! ### The bytes written -/

/-- The buffer holds these bytes, written from index 0 on. -/
def Memory.StartsWith (m : Memory) (bs : List Byte) : Prop :=
  ∀ i (h : i < bs.length), m.read? i = some bs[i]

theorem Memory.startsWith_nil (m : Memory) : m.StartsWith [] := fun _ h => nomatch h

theorem Memory.StartsWith.writeSeq {m : Memory} {xs : List Byte} (h : m.StartsWith xs)
    (ys : List Byte) : (m.writeSeq xs.length ys).StartsWith (xs ++ ys) := by
  intro i hi
  rcases Nat.lt_or_ge i xs.length with hlt | hge
  · rw [Memory.read?_writeSeq_other _ _ (.inl hlt), h i hlt, List.getElem_append_left hlt]
  · obtain ⟨k, rfl⟩ := Nat.exists_eq_add_of_le hge
    have hk : k < ys.length := by rw [List.length_append] at hi; omega
    rw [Memory.read?_writeSeq _ _ _ _ hk]; simp

namespace State

variable {s t u : State} {r : Except ErrCode (List Byte)}

theorem outBytes_of_startsWith {bs : List Byte} (h : s.outBuf.StartsWith bs) :
    s.outBytes bs.length = bs :=
  List.ext_getElem (s.outBytes_length _) fun i _ hi => by
    simp only [outBytes, List.getElem_map, List.getElem_range]
    exact s.outByte_of_written (h i hi)

/-! ### The completion -/

/-- The command has completed with this result: `OK`, and the bytes written to `OUT_BUF`; or a code, and
`OUT_LEN` 0 (R77, R81). -/
def Shows (u : State) : Except ErrCode (List Byte) → Prop
  | .ok ys => u.status = ⟨false, true, .ok⟩ ∧ u.outLen.toNat = ys.length ∧ u.outBuf.StartsWith ys
  | .error e => u.status = ⟨false, true, e⟩ ∧ u.outLen = 0

/-- The engine alone completes with this result within `k` steps. -/
def CompletesWithin (s : State) (k : Nat) (r : Except ErrCode (List Byte)) : Prop :=
  ∃ j, j ≤ k ∧ (engineSteps j s).Shows r

theorem Shows.completesWithin (h : s.engineStep.Shows r) (k : Nat) : s.CompletesWithin (k + 1) r :=
  ⟨1, by omega, h⟩

theorem CompletesWithin.of_engineStep {k : Nat} (h : s.engineStep.CompletesWithin k r) :
    s.CompletesWithin (k + 1) r := by
  obtain ⟨j, hj, hshows⟩ := h
  exact ⟨j + 1, by omega, hshows⟩

/-- What the engine alone leaves unchanged, in any number of steps. -/
theorem engineSteps_frame (k : Nat) (s : State) :
    (engineSteps k s).build = s.build ∧ (engineSteps k s).inLen = s.inLen ∧
    (engineSteps k s).inBuf = s.inBuf ∧ (engineSteps k s).era = s.era ∧
    (engineSteps k s).todo = s.todo ∧ (engineSteps k s).replies = s.replies := by
  induction k generalizing s with
  | zero => exact ⟨rfl, rfl, rfl, rfl, rfl, rfl⟩
  | succ k ih =>
    obtain ⟨hbuild, hinLen, hinBuf, hera, htodo, hreplies⟩ := s.engineStep_frame
    simpa only [engineSteps, hbuild, hinLen, hinBuf, hera, htodo, hreplies] using ih s.engineStep

end State

/-! ### The group loop -/

/-- The length of a whole group of the input (R60, R69). -/
def EngOp.groupIn : EngOp → Nat
  | .encode => 3
  | .decode => 4

/-- The length of what a whole group gives (R60, R70). -/
def EngOp.groupOut : EngOp → Nat
  | .encode => 4
  | .decode => 3

namespace State

variable {s : State} {op : EngOp} {past grp rest out bs : List Byte}

/-- A pass of the group loop that goes on: the group's bytes are emitted and `ENG.G` counts it. -/
def emitGroup (s : State) (i : Nat) (bs : List Byte) : State :=
  { s.emit i bs with eng := { (s.emit i bs).eng with g := s.eng.g + 1 } }

theorem emitGroup_eng (s : State) (i : Nat) (bs : List Byte) : (s.emitGroup i bs).eng =
    { s.eng with w := s.eng.w + BitVec.ofNat 32 bs.length, g := s.eng.g + 1 } := rfl

/-- The group loop with the whole groups `past` read, `rest` still to read, and `out` written. -/
structure Progress (s : State) (op : EngOp) (past rest out : List Byte) : Prop where
  busy : s.status.busy = true
  running : s.eng.op = op
  looping : s.eng.phase = .groups
  input : s.inBytes s.eng.n.toNat = past ++ rest
  fits : s.eng.n.toNat ≤ 49152
  read : past.length = op.groupIn * s.eng.g.toNat
  wrote : out.length = op.groupOut * s.eng.g.toNat
  counted : s.eng.w.toNat = out.length
  output : s.outBuf.StartsWith out

namespace Progress

theorem n_eq (h : s.Progress op past rest out) :
    s.eng.n.toNat = op.groupIn * s.eng.g.toNat + rest.length := by
  rw [← h.read, ← List.length_append, ← h.input, inBytes_length]

theorem g_le (h : s.Progress op past rest out) : s.eng.g.toNat ≤ 49152 := by
  have hn := h.n_eq
  have hfits := h.fits
  cases op <;> simp only [EngOp.groupIn] at hn <;> omega

/-- The bytes still to read stand behind the groups read. -/
theorem inByte_eq (h : s.Progress op past rest out) {k : Nat} (hk : k < rest.length) :
    s.inByte (op.groupIn * s.eng.g.toNat + k) = rest[k] := by
  have hlt : op.groupIn * s.eng.g.toNat + k < (s.inBytes s.eng.n.toNat).length := by
    rw [inBytes_length, h.n_eq]; omega
  calc s.inByte (op.groupIn * s.eng.g.toNat + k)
      = (past ++ rest)[op.groupIn * s.eng.g.toNat + k]'(h.input ▸ hlt) := by
        rw [← s.inBytes_getElem _ _ hlt, List.getElem_of_eq h.input]
    _ = rest[k] := by simp [← h.read]

/-- `ENG.W` counts the bytes emitted without overflow. -/
theorem counted_emit (h : s.Progress op past rest out) (hbs : bs.length ≤ 4) :
    (s.eng.w + BitVec.ofNat 32 bs.length).toNat = (out ++ bs).length := by
  have hg := h.g_le
  have hwrote := h.wrote
  simp only [BitVec.toNat_add, BitVec.toNat_ofNat, List.length_append, h.counted]
  cases op <;> simp only [EngOp.groupOut] at hwrote <;> omega

/-- A whole group has been read and its bytes have been emitted. -/
theorem nextGroup (h : s.Progress op past (grp ++ rest) out) (hgrp : grp.length = op.groupIn)
    (hbs : bs.length = op.groupOut) :
    (s.emitGroup out.length bs).draw.Progress op (past ++ grp) rest (out ++ bs) := by
  have hg := h.g_le
  have hone : (1 : Word).toNat = 1 := rfl
  have hnext : (s.eng.g + 1).toNat = s.eng.g.toNat + 1 := by rw [BitVec.toNat_add, hone]; omega
  refine
    { busy := h.busy, running := h.running, looping := h.looping, fits := h.fits, input := ?_, read := ?_
      wrote := ?_, counted := h.counted_emit ?_, output := h.output.writeSeq bs }
  · rw [List.append_assoc]; exact h.input
  · simp only [draw_eng, emitGroup_eng, hnext, List.length_append, h.read, hgrp, Nat.mul_succ]
  · simp only [draw_eng, emitGroup_eng, hnext, List.length_append, h.wrote, hbs, Nat.mul_succ]
  · rw [hbs]; cases op <;> decide

/-- The completion that follows the last bytes emitted. -/
theorem shows_emit_complete (h : s.Progress op past rest out) {len : Word}
    (hlen : len.toNat = (out ++ bs).length) :
    ((s.emit out.length bs).complete .ok len).draw.Shows (.ok (out ++ bs)) :=
  ⟨rfl, hlen, h.output.writeSeq bs⟩

theorem shows_complete (h : s.Progress op past rest out) {len : Word} (hlen : len.toNat = out.length) :
    (s.complete .ok len).draw.Shows (.ok out) := ⟨rfl, hlen, h.output⟩

/-! ### ENCODE -/

theorem engineStep_encode (h : s.Progress .encode past rest out) :
    s.engineStep = s.encodeGroup.draw := by
  rw [engineStep_busy h.busy, runningStep, h.running, h.looping]

theorem encodedLength_eq (h : s.Progress .encode past rest out) :
    (BitVec.ofNat 32 (encodedLength s.eng.n.toNat)).toNat = (out ++ encodeText rest).length := by
  have hn := h.n_eq
  have hout := h.wrote
  have hfits := h.fits
  simp only [EngOp.groupIn, EngOp.groupOut] at hn hout
  simp only [encodedLength, BitVec.toNat_ofNat, List.length_append, encodeText_length]; omega

theorem encodeGroup_three {b0 b1 b2 : Byte} (h : s.Progress .encode past (b0 :: b1 :: b2 :: rest) out) :
    s.encodeGroup = s.emitGroup out.length (encGroup b0 b1 b2 3) := by
  have hn : s.eng.n.toNat = 3 * s.eng.g.toNat + (rest.length + 1 + 1 + 1) := h.n_eq
  have hout : out.length = 4 * s.eng.g.toNat := h.wrote
  have h0 : s.inByte (3 * s.eng.g.toNat) = b0 := h.inByte_eq (k := 0) (by simp)
  have h1 : s.inByte (3 * s.eng.g.toNat + 1) = b1 := h.inByte_eq (k := 1) (by simp)
  have h2 : s.inByte (3 * s.eng.g.toNat + 2) = b2 := h.inByte_eq (k := 2) (by simp)
  simp only [encodeGroup, h0, h1, h2, hout]
  rw [if_pos (by omega)]; rfl

theorem encodeGroup_two {b0 b1 : Byte} (h : s.Progress .encode past [b0, b1] out) :
    s.encodeGroup = (s.emit out.length (encGroup b0 b1 0 2)).complete .ok
      (BitVec.ofNat 32 (encodedLength s.eng.n.toNat)) := by
  have hn : s.eng.n.toNat = 3 * s.eng.g.toNat + 2 := h.n_eq
  have hout : out.length = 4 * s.eng.g.toNat := h.wrote
  have h0 : s.inByte (3 * s.eng.g.toNat) = b0 := h.inByte_eq (k := 0) (by simp)
  have h1 : s.inByte (3 * s.eng.g.toNat + 1) = b1 := h.inByte_eq (k := 1) (by simp)
  simp only [encodeGroup, h0, h1, hout]
  rw [if_neg (by omega), if_neg (by omega), if_pos hn]

theorem encodeGroup_one {b0 : Byte} (h : s.Progress .encode past [b0] out) :
    s.encodeGroup = (s.emit out.length (encGroup b0 0 0 1)).complete .ok
      (BitVec.ofNat 32 (encodedLength s.eng.n.toNat)) := by
  have hn : s.eng.n.toNat = 3 * s.eng.g.toNat + 1 := h.n_eq
  have hout : out.length = 4 * s.eng.g.toNat := h.wrote
  have h0 : s.inByte (3 * s.eng.g.toNat) = b0 := h.inByte_eq (k := 0) (by simp)
  simp only [encodeGroup, h0, hout]
  rw [if_neg (by omega), if_pos hn]

theorem encodeGroup_nil (h : s.Progress .encode past [] out) :
    s.encodeGroup = s.complete .ok (BitVec.ofNat 32 (encodedLength s.eng.n.toNat)) := by
  have hn : s.eng.n.toNat = 3 * s.eng.g.toNat := h.n_eq
  simp only [encodeGroup]
  rw [if_neg (by omega), if_neg (by omega), if_neg (by omega)]

/-- The loop of R64 writes the text of the bytes still to read behind what it has written. -/
theorem encode_completes (h : s.Progress .encode past rest out) :
    s.CompletesWithin (rest.length / 3 + 1) (.ok (out ++ encodeText rest)) := by
  induction rest using encodeText.induct generalizing s past out with
  | case1 b0 b1 b2 rest ih =>
    have hnext := nextGroup (grp := [b0, b1, b2]) h rfl (encGroup_length b0 b1 b2 3)
    rw [← h.encodeGroup_three, ← h.engineStep_encode] at hnext
    have hk : (b0 :: b1 :: b2 :: rest).length / 3 = rest.length / 3 + 1 := by
      simp only [List.length_cons]; omega
    rw [hk, encodeText, ← List.append_assoc]; exact (ih hnext).of_engineStep
  | case2 b0 b1 =>
    have hshows := h.shows_emit_complete h.encodedLength_eq
    rw [encodeText, ← h.encodeGroup_two, ← h.engineStep_encode] at hshows
    exact hshows.completesWithin _
  | case3 b0 =>
    have hshows := h.shows_emit_complete h.encodedLength_eq
    rw [encodeText, ← h.encodeGroup_one, ← h.engineStep_encode] at hshows
    exact hshows.completesWithin _
  | case4 =>
    have hlen := h.encodedLength_eq
    rw [encodeText, List.append_nil] at hlen
    have hshows := h.shows_complete hlen
    rw [← h.encodeGroup_nil, ← h.engineStep_encode] at hshows
    rw [encodeText, List.append_nil]; exact hshows.completesWithin _

/-! ### DECODE -/

theorem engineStep_decode (h : s.Progress .decode past rest out) :
    s.engineStep = s.decodeGroup.draw := by
  rw [engineStep_busy h.busy, runningStep, h.running, h.looping]

theorem decodeGroup_nil (h : s.Progress .decode past [] out) :
    s.decodeGroup = s.complete .ok s.eng.w := by
  have hn : s.eng.n.toNat = 4 * s.eng.g.toNat := h.n_eq
  simp only [decodeGroup]
  rw [if_pos (by omega)]

section

variable {c0 c1 c2 c3 : Byte} {policy : PadPolicy} {ys : List Byte}

/-- The engine looks at the next four bytes, and knows the final group by `ENG.N`. -/
theorem decGroup_inByte (h : s.Progress .decode past (c0 :: c1 :: c2 :: c3 :: rest) out)
    (hwhole : (c0 :: c1 :: c2 :: c3 :: rest).length % 4 = 0) :
    decGroup policy (s.eng.g.toNat + 1 == s.eng.n.toNat / 4) (s.inByte (4 * s.eng.g.toNat))
        (s.inByte (4 * s.eng.g.toNat + 1)) (s.inByte (4 * s.eng.g.toNat + 2))
        (s.inByte (4 * s.eng.g.toNat + 3)) =
      decGroup policy rest.isEmpty c0 c1 c2 c3 := by
  have hn : s.eng.n.toNat = 4 * s.eng.g.toNat + (rest.length + 1 + 1 + 1 + 1) := h.n_eq
  have h0 : s.inByte (4 * s.eng.g.toNat) = c0 := h.inByte_eq (k := 0) (by simp)
  have h1 : s.inByte (4 * s.eng.g.toNat + 1) = c1 := h.inByte_eq (k := 1) (by simp)
  have h2 : s.inByte (4 * s.eng.g.toNat + 2) = c2 := h.inByte_eq (k := 2) (by simp)
  have h3 : s.inByte (4 * s.eng.g.toNat + 3) = c3 := h.inByte_eq (k := 3) (by simp)
  have hlast : (s.eng.g.toNat + 1 == s.eng.n.toNat / 4) = rest.isEmpty := by
    simp only [List.length_cons] at hwhole
    rw [Bool.eq_iff_iff, beq_iff_eq, List.isEmpty_iff_length_eq_zero]; omega
  rw [h0, h1, h2, h3, hlast]

theorem not_done (h : s.Progress .decode past (c0 :: c1 :: c2 :: c3 :: rest) out) :
    ¬ s.eng.n.toNat / 4 ≤ s.eng.g.toNat := by
  have hn : s.eng.n.toNat = 4 * s.eng.g.toNat + (rest.length + 1 + 1 + 1 + 1) := h.n_eq
  omega

theorem decodeGroup_bad (h : s.Progress .decode past (c0 :: c1 :: c2 :: c3 :: rest) out)
    (hwhole : (c0 :: c1 :: c2 :: c3 :: rest).length % 4 = 0) {e : ErrCode}
    (hres : decGroup s.build.padPolicy rest.isEmpty c0 c1 c2 c3 = .bad e) :
    s.decodeGroup = s.complete e 0 := by
  simp only [decodeGroup, if_neg h.not_done, h.decGroup_inByte hwhole, hres]

theorem decodeGroup_stop (h : s.Progress .decode past (c0 :: c1 :: c2 :: c3 :: rest) out)
    (hwhole : (c0 :: c1 :: c2 :: c3 :: rest).length % 4 = 0)
    (hres : decGroup s.build.padPolicy rest.isEmpty c0 c1 c2 c3 = .stop ys) :
    s.decodeGroup = (s.emit out.length ys).complete .ok (s.eng.w + BitVec.ofNat 32 ys.length) := by
  simp only [decodeGroup, if_neg h.not_done, h.decGroup_inByte hwhole, hres, h.counted]; rfl

theorem decodeGroup_more (h : s.Progress .decode past (c0 :: c1 :: c2 :: c3 :: rest) out)
    (hwhole : (c0 :: c1 :: c2 :: c3 :: rest).length % 4 = 0)
    (hres : decGroup s.build.padPolicy rest.isEmpty c0 c1 c2 c3 = .more ys) :
    s.decodeGroup = s.emitGroup out.length ys := by
  simp only [decodeGroup, if_neg h.not_done, h.decGroup_inByte hwhole, hres, h.counted]; rfl

end

/-- The loop of R75 gives what the groups still to read decode to, behind what it has written. -/
theorem decode_completes (h : s.Progress .decode past rest out) (hwhole : rest.length % 4 = 0) :
    s.CompletesWithin (rest.length / 4 + 1)
      ((decodeGroups s.build.padPolicy rest).map (out ++ ·)) := by
  generalize hpolicy : s.build.padPolicy = policy
  induction rest using decodeGroups.induct policy generalizing s past out with
  | case1 =>
    have hshows := h.shows_complete h.counted
    rw [← h.decodeGroup_nil, ← h.engineStep_decode] at hshows
    have hdec : (decodeGroups policy []).map (out ++ ·) = .ok out := by simp [decodeGroups, Except.map]
    rw [hdec]; exact hshows.completesWithin _
  | case2 c0 c1 c2 c3 rest e hres =>
    subst hpolicy
    have hshows : s.engineStep.Shows (.error e) := by
      rw [h.engineStep_decode, h.decodeGroup_bad hwhole hres]; exact ⟨rfl, rfl⟩
    rw [decodeGroups, hres]; exact hshows.completesWithin _
  | case3 c0 c1 c2 c3 rest ys hres =>
    subst hpolicy
    have hys := decGroup_stop hres
    have hshows := h.shows_emit_complete (h.counted_emit (bs := ys) (by omega))
    rw [← h.decodeGroup_stop hwhole hres, ← h.engineStep_decode] at hshows
    rw [decodeGroups, hres]; exact hshows.completesWithin _
  | case4 c0 c1 c2 c3 rest ys hres _ _ ih | case5 c0 c1 c2 c3 rest ys hres _ _ ih =>
    subst hpolicy
    have hmod : rest.length % 4 = 0 := by simp only [List.length_cons] at hwhole; omega
    have hnext := nextGroup (grp := [c0, c1, c2, c3]) h rfl (decGroup_more hres)
    rw [← h.decodeGroup_more hwhole hres, ← h.engineStep_decode] at hnext
    have hcomplete := ih hnext hmod (by rw [s.engineStep_frame.1])
    have hk : (c0 :: c1 :: c2 :: c3 :: rest).length / 4 = rest.length / 4 + 1 := by
      simp only [List.length_cons]; omega
    have hmap : (decodeGroups s.build.padPolicy (c0 :: c1 :: c2 :: c3 :: rest)).map (out ++ ·) =
        (decodeGroups s.build.padPolicy rest).map (out ++ ys ++ ·) := by
      rw [decodeGroups_more hres]
      cases decodeGroups s.build.padPolicy rest <;> simp [Except.map]
    rw [hk, hmap]; exact hcomplete.of_engineStep
  | case6 rest hne hlong =>
    match rest with
    | [] => exact (hne rfl).elim
    | [_] | [_, _] | [_, _, _] => cases hwhole
    | _ :: _ :: _ :: _ :: _ => exact (hlong _ _ _ _ _ rfl).elim

end Progress

/-! ### From the issue to the completion -/

/-- The state that the issue of `ENCODE` or `DECODE` within capacity answers (R80). -/
def started (s : State) (op : EngOp) : State :=
  { s with status := ⟨true, false, .ok⟩, outLen := 0, eng := ⟨op, s.inLen, 0, 0, .check⟩ }

theorem issue_startEngine (op : EngOp) (hidle : s.status.busy = false)
    (hfits : s.inLen.toNat ≤ s.build.inCap) : s.issue (startEngine op) = .next (s.started op) := by
  rw [issue_idle hidle, startEngine_fits op hfits]; rfl

/-- The phase `CHECK` leads to the start of the group loop. -/
theorem progress_of_started (op : EngOp) (hn : s.inLen.toNat ≤ 49152) :
    { s.started op with eng := { (s.started op).eng with phase := .groups } }.draw.Progress op []
      (s.inBytes s.inLen.toNat) [] where
  busy := rfl
  running := rfl
  looping := rfl
  input := rfl
  fits := hn
  read := rfl
  wrote := rfl
  counted := rfl
  output := Memory.startsWith_nil _

theorem started_encode_completes (hn : s.inLen.toNat ≤ 49152) :
    (s.started .encode).CompletesWithin (s.inLen.toNat / 3 + 2)
      (.ok (encodeText (s.inBytes s.inLen.toNat))) := by
  have hloop := (progress_of_started .encode hn).encode_completes
  rw [inBytes_length] at hloop
  exact hloop.of_engineStep (s := s.started .encode)

theorem started_decode_completes (hn : s.inLen.toNat ≤ 49152) :
    (s.started .decode).CompletesWithin (s.inLen.toNat / 4 + 2)
      (decodeText s.build.padPolicy (s.inBytes s.inLen.toNat)) := by
  have hstep : (s.started .decode).engineStep = (s.started .decode).decodeCheck.draw := rfl
  have hlength : (s.inBytes s.inLen.toNat).length = s.inLen.toNat := s.inBytes_length _
  have hcaptured : (s.started .decode).eng.n.toNat = (s.inBytes s.inLen.toNat).length := hlength.symm
  rcases (s.started .decode).decodeCheck_cases with
    ⟨hmod, heq⟩ | ⟨hmod, ⟨i, hi, hbyte⟩, heq⟩ | ⟨hmod, hascii, heq⟩ <;>
    rw [heq] at hstep <;> rw [hcaptured] at hmod
  · rw [decodeText_of_badLength _ hmod]
    exact Shows.completesWithin (hstep ▸ ⟨rfl, rfl⟩) _
  · rw [decodeText_of_notAscii _ hmod ⟨_, s.mem_inBytes.2 ⟨i, hi, rfl⟩, hbyte⟩]
    exact Shows.completesWithin (hstep ▸ ⟨rfl, rfl⟩) _
  · have hloop := (progress_of_started .decode hn).decode_completes hmod
    rw [hlength] at hloop
    have hbytes : ∀ b ∈ s.inBytes s.inLen.toNat, b.toNat < 0x80 := by
      intro b hb; obtain ⟨i, hi, rfl⟩ := s.mem_inBytes.1 hb; exact hascii i hi
    rw [decodeText_of_checked _ hmod hbytes]
    have hmap : (decodeGroups s.build.padPolicy (s.inBytes s.inLen.toNat)).map ([] ++ ·) =
        decodeGroups s.build.padPolicy (s.inBytes s.inLen.toNat) := congrFun Except.map_id _
    rw [← hmap]; exact CompletesWithin.of_engineStep (hstep ▸ hloop)

/-- With no move to come, the steps of the machine reach the completion. The frame of every command from
its start to its result is that of the engine's steps. -/
theorem CompletesWithin.exists_run {k : Nat} (h : s.CompletesWithin k r) (htodo : s.todo = []) :
    ∃ (j : Nat) (u : State), j ≤ k ∧ run j s = .next u ∧ u.Shows r ∧
      u.build = s.build ∧ u.inLen = s.inLen ∧ u.inBuf = s.inBuf ∧ u.era = s.era ∧
      u.todo = s.todo ∧ u.replies = s.replies := by
  obtain ⟨j, hj, hshows⟩ := h
  exact ⟨j, engineSteps j s, hj, run_eq_engineSteps htodo j, hshows, engineSteps_frame j s⟩

end State

/-- Settles O28: the loop writes the text of the captured input, and the steps of the machine are those of
the engine. -/
theorem encodeCompletesWithEncodedText : Obligations.EncodeCompletesWithEncodedText := by
  intro s hlegal hidle htodo hfits n
  have hlength : (encodeText (s.inBytes n)).length = 4 * ((n + 2) / 3) := by
    rw [encodeText_length, State.inBytes_length]
  obtain ⟨k, u, hk, hrun, ⟨hstatus, hlen, hbytes⟩, hbuild, hinLen, hinBuf, hera, htodo', hreplies⟩ :=
    (State.started_encode_completes (hfits.trans hlegal.2)).exists_run htodo
  refine ⟨_, k, u, State.issue_startEngine .encode hidle hfits, rfl, hk, hrun, hstatus, hlen.trans hlength,
    ?_, hinLen, hinBuf, hbuild, hera, htodo'.trans htodo, hreplies⟩
  rw [← hlength]; exact State.outBytes_of_startsWith hbytes

/-- Settles O30: the text of the first command is the input of the second, which decodes it. -/
theorem roundTripThroughTheBlock : Obligations.RoundTripThroughTheBlock := by
  intro s hlegal hidle htodo hfits hroom
  obtain ⟨t, k, u, hexec, -, -, hrun, hstatus, hlen, hbytes, -⟩ :=
    encodeCompletesWithEncodedText s hlegal hidle htodo hfits
  refine ⟨t, k, u, hexec, hrun, hstatus, fun s' hbuild hidle' htodo' hinLen hcopy => ?_⟩
  have hfits' : s'.inLen.toNat ≤ s'.build.inCap := by rw [hinLen, hlen, hbuild]; exact hroom
  have hdec : decodeText s'.build.padPolicy (s'.inBytes s'.inLen.toNat) =
      .ok (s.inBytes s.inLen.toNat) := by
    rw [hinLen, hcopy, hlen, hbytes]; exact decodeInvertsEncodeOnText _ _
  have hcompletes := State.started_decode_completes (hfits'.trans (hbuild ▸ hlegal.2))
  rw [hdec] at hcompletes
  obtain ⟨k', u', -, hrun', ⟨hstatus', hlen', hbytes'⟩, -⟩ := hcompletes.exists_run htodo'
  rw [State.inBytes_length] at hlen'
  refine ⟨_, k', u', State.issue_startEngine .decode hidle' hfits', hrun', hstatus',
    BitVec.eq_of_toNat_eq hlen', ?_⟩
  simpa only [State.inBytes_length] using State.outBytes_of_startsWith hbytes'

end Sys2Proof.Machine
end

section
/-! The validator and the reassembler (42_decode.md R69, R70). -/

namespace Sys2Proof.Machine

/-- Settles O20: bit by bit, the parts set side by side are the shifted values, which do not overlap. -/
theorem reassembleInvertsSlice : Obligations.ReassembleInvertsSlice := by
  refine ⟨fun v0 v1 v2 v3 => ?_, reassemble_slice⟩
  simp only [reassemble, Prod.mk.injEq]
  refine ⟨?_, ?_, ?_⟩ <;> ext i hi <;> grind

/-- The padding code is no member of the alphabet (R58). -/
theorem not_inv_padCode_lt : ¬ (inv padCode).toNat < 64 := by decide

/-- The group check in the entries of the inverse table. -/
theorem validateGroup_iff (c0 c1 c2 c3 : Code) :
    validateGroup c0 c1 c2 c3 = true ↔
      (inv c0).toNat < 64 ∧ (inv c1).toNat < 64 ∧
      (c2 = padCode ∨ (inv c2).toNat < 64) ∧ (c3 = padCode ∨ (inv c3).toNat < 64) := by
  simp [validateGroup, isMember, and_assoc]

/-- Settles O21: the two first places hold members, and `=` is none. -/
theorem validatorAcceptsPaddingOnlyAtTheEnd : Obligations.ValidatorAcceptsPaddingOnlyAtTheEnd := by
  intro c0 c1 c2 c3
  refine ⟨validateGroup_iff c0 c1 c2 c3, fun hpad => Bool.eq_false_iff.2 fun hvalid => ?_⟩
  obtain ⟨h0, h1, -⟩ := (validateGroup_iff c0 c1 c2 c3).1 hvalid
  rcases hpad with rfl | rfl
  · exact not_inv_padCode_lt h0
  · exact not_inv_padCode_lt h1

end Sys2Proof.Machine
end

section
/-! The decoder's loop on checked text (42_decode.md R69 to R78): groups of members before, then the first
group that is not all of members, which decides. -/

namespace Sys2Proof.Machine

/-! ### One group -/

/-- A member of the alphabet is not `=`. -/
theorem ne_padChar_of_member {b : Byte} (h : (inv (code b)).toNat < 64) : b ≠ padChar := by
  rintro rfl; exact not_inv_padCode_lt h

theorem padChar_notMem_of_members {l : List Byte} (h : ∀ b ∈ l, (inv (code b)).toNat < 64) :
    padChar ∉ l := fun hpad => ne_padChar_of_member (h _ hpad) rfl

/-- Among ASCII bytes `=` alone has the padding code. -/
theorem code_eq_padCode_iff {b : Byte} (h : b.toNat < 0x80) : code b = padCode ↔ b = padChar := by
  simp only [code, padCode, padChar, ← BitVec.toNat_inj, BitVec.toNat_setWidth, Nat.mod_eq_of_lt h]; rfl

/-- The group check on ASCII bytes: only `=` itself passes as padding. -/
theorem validateGroup_code_iff {c0 c1 c2 c3 : Byte} (h2 : c2.toNat < 0x80) (h3 : c3.toNat < 0x80) :
    validateGroup (code c0) (code c1) (code c2) (code c3) = true ↔
      (inv (code c0)).toNat < 64 ∧ (inv (code c1)).toNat < 64 ∧
      (c2 = padChar ∨ (inv (code c2)).toNat < 64) ∧ (c3 = padChar ∨ (inv (code c3)).toNat < 64) := by
  rw [validateGroup_iff, code_eq_padCode_iff h2, code_eq_padCode_iff h3]

/-- Under `STRICT`: `=` at position 2 without one at position 3, or in a group that is not the final one
(R74). -/
theorem paddingMisplaced_iff (post : List Byte) (c2 c3 : Byte) :
    paddingMisplaced post.isEmpty c2 c3 = true ↔
      (c2 = padChar ∧ c3 ≠ padChar) ∨ ((c2 = padChar ∨ c3 = padChar) ∧ post ≠ []) := by
  simp [paddingMisplaced]

section

variable {policy : PadPolicy} {last : Bool} {c0 c1 c2 c3 : Byte}

/-! The five answers of a group, in the order of the checks (R75, R76). -/

theorem decGroup_of_invalid (h : ¬ validateGroup (code c0) (code c1) (code c2) (code c3) = true) :
    decGroup policy last c0 c1 c2 c3 = .bad .invalidAlphabet := by simp [decGroup, h]

theorem decGroup_of_misplaced (h : validateGroup (code c0) (code c1) (code c2) (code c3) = true)
    (hm : policy = .strict ∧ paddingMisplaced last c2 c3 = true) :
    decGroup policy last c0 c1 c2 c3 = .bad .unexpectedPadding := by simp [decGroup, h, hm]

theorem decGroup_of_pad2 (h : validateGroup (code c0) (code c1) (code c2) (code c3) = true)
    (hm : ¬ (policy = .strict ∧ paddingMisplaced last c2 c3 = true)) (h2 : c2 = padChar) :
    decGroup policy last c0 c1 c2 c3 =
      .stop [(reassemble (sextetOf c0) (sextetOf c1) (sextetOf c2) (sextetOf c3)).1] := by
  subst h2; simp [decGroup, h, hm, -code_padChar]

theorem decGroup_of_pad3 (h : validateGroup (code c0) (code c1) (code c2) (code c3) = true)
    (hm : ¬ (policy = .strict ∧ paddingMisplaced last c2 c3 = true)) (h2 : c2 ≠ padChar)
    (h3 : c3 = padChar) :
    decGroup policy last c0 c1 c2 c3 =
      .stop [(reassemble (sextetOf c0) (sextetOf c1) (sextetOf c2) (sextetOf c3)).1,
        (reassemble (sextetOf c0) (sextetOf c1) (sextetOf c2) (sextetOf c3)).2.1] := by
  subst h3; simp [decGroup, h, hm, h2, -code_padChar]

theorem decGroup_of_noPad (h : validateGroup (code c0) (code c1) (code c2) (code c3) = true)
    (h2 : c2 ≠ padChar) (h3 : c3 ≠ padChar) :
    decGroup policy last c0 c1 c2 c3 =
      .more [(reassemble (sextetOf c0) (sextetOf c1) (sextetOf c2) (sextetOf c3)).1,
        (reassemble (sextetOf c0) (sextetOf c1) (sextetOf c2) (sextetOf c3)).2.1,
        (reassemble (sextetOf c0) (sextetOf c1) (sextetOf c2) (sextetOf c3)).2.2] := by
  simp [decGroup, h, paddingMisplaced, h2, h3]

end

/-! ### Groups of members -/

/-- Groups of members give three bytes each, before whatever follows them. -/
theorem decodeGroups_members_append (policy : PadPolicy) : ∀ {pre : List Byte}, pre.length % 4 = 0 →
    (∀ b ∈ pre, (inv (code b)).toNat < 64) →
    ∃ ys, ys.length = 3 * (pre.length / 4) ∧
      ∀ post, decodeGroups policy (pre ++ post) = (decodeGroups policy post).map (ys ++ ·)
  | [], _, _ => ⟨[], rfl, fun post => (congrFun Except.map_id _).symm⟩
  | c0 :: c1 :: c2 :: c3 :: pre, hwhole, hmem => by
    simp only [List.forall_mem_cons] at hmem
    obtain ⟨h0, h1, h2, h3, hmem⟩ := hmem
    simp only [List.length_cons] at hwhole
    obtain ⟨ys, hlen, hys⟩ := decodeGroups_members_append policy (by omega) hmem
    have hvalid := (validateGroup_iff _ _ _ _).2 ⟨h0, h1, .inr h2, .inr h3⟩
    have hpad2 := ne_padChar_of_member h2
    have hpad3 := ne_padChar_of_member h3
    let y := reassemble (sextetOf c0) (sextetOf c1) (sextetOf c2) (sextetOf c3)
    refine ⟨[y.1, y.2.1, y.2.2] ++ ys, ?_, fun post => ?_⟩
    · simp only [List.length_append, List.length_cons, List.length_nil]; omega
    · simp only [List.cons_append]
      rw [decodeGroups_more (decGroup_of_noPad hvalid hpad2 hpad3), hys]
      cases decodeGroups policy post <;> rfl
  | [_], hwhole, _ | [_, _], hwhole, _ | [_, _, _], hwhole, _ => by cases hwhole

/-- What goes before every text is what the groups decode to alone. -/
theorem decodeGroups_of_append {policy : PadPolicy} {pre ys : List Byte}
    (h : ∀ post, decodeGroups policy (pre ++ post) = (decodeGroups policy post).map (ys ++ ·)) :
    decodeGroups policy pre = .ok ys := by
  simpa [decodeGroups, Except.map] using h []

/-- Whole groups are groups of members, or the first group that is not stands behind such groups. -/
theorem exists_first_nonmember_group : ∀ {text : List Byte}, text.length % 4 = 0 →
    (∀ b ∈ text, (inv (code b)).toNat < 64) ∨
    ∃ pre c0 c1 c2 c3 post, text = pre ++ [c0, c1, c2, c3] ++ post ∧
      pre.length % 4 = 0 ∧ post.length % 4 = 0 ∧ (∀ b ∈ pre, (inv (code b)).toNat < 64) ∧
      ¬ ∀ b ∈ [c0, c1, c2, c3], (inv (code b)).toNat < 64
  | [], _ => .inl nofun
  | c0 :: c1 :: c2 :: c3 :: text, hwhole => by
    simp only [List.length_cons] at hwhole
    by_cases hgroup : ∀ b ∈ [c0, c1, c2, c3], (inv (code b)).toNat < 64
    · rcases exists_first_nonmember_group (text := text) (by omega) with
        hmem | ⟨pre, d0, d1, d2, d3, post, rfl, hpre, hpost, hmem, hnot⟩
      · exact .inl (List.forall_mem_append.2 ⟨hgroup, hmem⟩)
      · refine .inr ⟨[c0, c1, c2, c3] ++ pre, d0, d1, d2, d3, post, rfl, ?_, hpost,
          List.forall_mem_append.2 ⟨hgroup, hmem⟩, hnot⟩
        simp only [List.length_append, List.length_cons, List.length_nil]; omega
    · exact .inr ⟨[], c0, c1, c2, c3, text, rfl, rfl, by omega, nofun, hgroup⟩
  | [_], hwhole | [_, _], hwhole | [_, _, _], hwhole => by cases hwhole

/-! ### The decode -/

/-- Settles O25: the groups of members give their bytes before what the next group decides. -/
theorem decodeStopsAtFirstPaddedOrBadGroup : Obligations.DecodeStopsAtFirstPaddedOrBadGroup := by
  intro policy pre post c0 c1 c2 c3 hpre hpost hascii hmem text valid misplaced y
  obtain ⟨ys, hlen, hys⟩ := decodeGroups_members_append policy hpre hmem
  obtain ⟨hascii', hasciiPost⟩ := List.forall_mem_append.1 hascii
  obtain ⟨hasciiPre, hasciiGroup⟩ := List.forall_mem_append.1 hascii'
  have hwhole : text.length % 4 = 0 := by
    simp only [text, List.length_append, List.length_cons, List.length_nil]; omega
  have htext : decodeText policy text =
      (decodeGroups policy (c0 :: c1 :: c2 :: c3 :: post)).map (ys ++ ·) := by
    rw [decodeText_of_checked policy hwhole hascii, ← hys]; simp [text]
  have hvalid : validateGroup (code c0) (code c1) (code c2) (code c3) = true ↔ valid :=
    validateGroup_code_iff (hasciiGroup c2 (by simp)) (hasciiGroup c3 (by simp))
  have hmisplaced : policy = .strict ∧ paddingMisplaced post.isEmpty c2 c3 = true ↔ misplaced :=
    and_congr_right fun _ => paddingMisplaced_iff post c2 c3
  rw [← hvalid, ← hmisplaced, htext]
  refine ⟨ys, ?_, hlen, fun hv => ?_, fun hv hm => ?_, fun hv hm h2 => ?_, fun hv hm h2 h3 => ?_,
    fun hv h2 h3 => ?_⟩
  · rw [decodeText_of_checked policy hpre hasciiPre, decodeGroups_of_append hys]
  · rw [decodeGroups, decGroup_of_invalid hv]; rfl
  · rw [decodeGroups, decGroup_of_misplaced hv hm]; rfl
  · rw [decodeGroups, decGroup_of_pad2 hv hm h2]; rfl
  · rw [decodeGroups, decGroup_of_pad3 hv hm h2 h3]; rfl
  · rw [decodeGroups_more (decGroup_of_noPad hv h2 h3), decodeText_of_checked policy hpost hasciiPost]
    cases decodeGroups policy post <;> simp [Except.map, y]

/-- In the text, `=` stands first at position 2 or 3 of the group `c0 c1 c2 c3`, where the policy
accepts it. -/
structure PaddedAt (policy : PadPolicy) (text pre : List Byte) (c0 c1 c2 c3 : Byte)
    (post : List Byte) : Prop where
  text_eq : text = pre ++ [c0, c1, c2, c3] ++ post
  whole : pre.length % 4 = 0
  clean : padChar ∉ pre
  first : c0 ≠ padChar ∧ c1 ≠ padChar
  padded : c2 = padChar ∨ c3 = padChar
  placed : ¬ (policy = .strict ∧ paddingMisplaced post.isEmpty c2 c3 = true)

/-- Everything the loop can give on text that has passed the length and ASCII checks. -/
theorem decodeGroups_cases (policy : PadPolicy) {text : List Byte} (hwhole : text.length % 4 = 0)
    (hascii : ∀ b ∈ text, b.toNat < 0x80) :
    decodeGroups policy text = .error .invalidAlphabet ∨
    (policy = .strict ∧ decodeGroups policy text = .error .unexpectedPadding) ∨
    (∃ ys, decodeGroups policy text = .ok ys ∧ padChar ∉ text ∧ ys.length = 3 * (text.length / 4)) ∨
    (∃ ys pre c0 c1 c2 c3 post, decodeGroups policy text = .ok ys ∧
      PaddedAt policy text pre c0 c1 c2 c3 post ∧
      ys.length = 3 * (pre.length / 4) + if c2 = padChar then 1 else 2) := by
  rcases exists_first_nonmember_group hwhole with
    hmem | ⟨pre, c0, c1, c2, c3, post, rfl, hpre, hpost, hmem, hnot⟩
  · obtain ⟨ys, hlen, hys⟩ := decodeGroups_members_append policy hwhole hmem
    exact .inr (.inr (.inl ⟨ys, decodeGroups_of_append hys, padChar_notMem_of_members hmem, hlen⟩))
  obtain ⟨ys, hlen, hys⟩ := decodeGroups_members_append policy hpre hmem
  have htext : decodeGroups policy (pre ++ [c0, c1, c2, c3] ++ post) =
      (decodeGroups policy (c0 :: c1 :: c2 :: c3 :: post)).map (ys ++ ·) := by
    rw [← hys]; simp
  rw [htext, decodeGroups]
  by_cases hv : validateGroup (code c0) (code c1) (code c2) (code c3) = true
  case neg => rw [decGroup_of_invalid hv]; exact .inl rfl
  by_cases hm : policy = .strict ∧ paddingMisplaced post.isEmpty c2 c3 = true
  case pos => rw [decGroup_of_misplaced hv hm]; exact .inr (.inl ⟨hm.1, rfl⟩)
  obtain ⟨h0, h1, h2, h3⟩ :=
    (validateGroup_code_iff (hascii c2 (by simp)) (hascii c3 (by simp))).1 hv
  have hpadded : c2 = padChar ∨ c3 = padChar := by
    by_contra hc
    obtain ⟨hc2, hc3⟩ := not_or.1 hc
    exact hnot (by simp [h0, h1, h2.resolve_left hc2, h3.resolve_left hc3])
  have hat : PaddedAt policy (pre ++ [c0, c1, c2, c3] ++ post) pre c0 c1 c2 c3 post :=
    ⟨rfl, hpre, padChar_notMem_of_members hmem, ⟨ne_padChar_of_member h0, ne_padChar_of_member h1⟩,
      hpadded, hm⟩
  refine .inr (.inr (.inr ?_))
  by_cases hc2 : c2 = padChar
  · rw [decGroup_of_pad2 hv hm hc2]
    exact ⟨_, _, _, _, _, _, _, rfl, hat, by simp [hlen, hc2]⟩
  · rw [decGroup_of_pad3 hv hm hc2 (hpadded.resolve_left hc2)]
    exact ⟨_, _, _, _, _, _, _, rfl, hat, by simp [hlen, hc2]⟩

/-- Settles O24: the two checks over the whole text, then the failures of a group. -/
theorem decodeChecksInOrder : Obligations.DecodeChecksInOrder := by
  intro policy text
  refine ⟨decodeText_of_badLength policy, decodeText_of_notAscii policy, fun hwhole hascii e he => ?_⟩
  rw [decodeText_of_checked policy hwhole hascii] at he
  rcases decodeGroups_cases policy hwhole hascii with
    h | ⟨hstrict, h⟩ | ⟨ys, h, -⟩ | ⟨ys, _, _, _, _, _, _, h, -⟩ <;> rw [h] at he <;> cases he
  · exact .inl rfl
  · exact .inr ⟨rfl, hstrict⟩

/-- A decode that succeeds has passed the length and ASCII checks. -/
theorem checked_of_decodeText_ok {policy : PadPolicy} {text ys : List Byte}
    (h : decodeText policy text = .ok ys) : text.length % 4 = 0 ∧ ∀ b ∈ text, b.toNat < 0x80 := by
  have hwhole : text.length % 4 = 0 := by
    by_contra hc; rw [decodeText_of_badLength policy hc] at h; cases h
  refine ⟨hwhole, fun b hb => ?_⟩
  by_contra hc
  rw [decodeText_of_notAscii policy hwhole ⟨b, hb, Nat.le_of_not_lt hc⟩] at h; cases h

namespace PaddedAt

variable {policy : PadPolicy} {text pre post : List Byte} {c0 c1 c2 c3 : Byte}

theorem length_eq (h : PaddedAt policy text pre c0 c1 c2 c3 post) :
    text.length = pre.length + 4 + post.length := by simp [h.text_eq]; omega

/-- The place of the first `=`. -/
theorem findIdx_eq (h : PaddedAt policy text pre c0 c1 c2 c3 post) :
    text.findIdx (· == padChar) = pre.length + if c2 = padChar then 2 else 3 := by
  obtain ⟨h0, h1⟩ := h.first
  have hpre : pre.findIdx (· == padChar) = pre.length :=
    List.findIdx_eq_length_of_false fun b hb => by
      simpa using fun hpad : b = padChar => h.clean (hpad ▸ hb)
  rw [h.text_eq, List.append_assoc, List.findIdx_append, hpre, if_neg (Nat.lt_irrefl _), Nat.add_comm]
  by_cases h2 : c2 = padChar
  · simp [List.findIdx_cons, beq_false_of_ne h0, beq_false_of_ne h1, h2]
  · simp [List.findIdx_cons, beq_false_of_ne h0, beq_false_of_ne h1, beq_false_of_ne h2,
      h2, h.padded.resolve_left h2]

/-- Under `STRICT` the group is the final one, and holds `=` at position 3 and at most one more. -/
theorem count_last (h : PaddedAt policy text pre c0 c1 c2 c3 post) (hstrict : policy = .strict) :
    post = [] ∧ (text.drop (text.length - 4)).count padChar = if c2 = padChar then 2 else 1 := by
  have hplaced := h.placed
  rw [paddingMisplaced_iff] at hplaced
  obtain ⟨h0, h1⟩ := h.first
  have hpost : post = [] := by by_contra hc; exact hplaced ⟨hstrict, .inr ⟨h.padded, hc⟩⟩
  have h3 : c3 = padChar := by
    by_contra hc; exact hplaced ⟨hstrict, .inl ⟨h.padded.resolve_right hc, hc⟩⟩
  refine ⟨hpost, ?_⟩
  have hdrop : text.drop (text.length - 4) = [c0, c1, c2, c3] := by
    simp [h.text_eq, hpost]
  rw [hdrop]
  by_cases h2 : c2 = padChar <;> simp [h0, h1, h2, h3]

end PaddedAt

/-- Settles O26: text without `=` gives three bytes a group; otherwise the group of the first `=` gives
one or two, and under `STRICT` it is the final one. -/
theorem decodedLength : Obligations.DecodedLength := by
  intro policy text ys hdec n j
  obtain ⟨hwhole, hascii⟩ := checked_of_decodeText_ok hdec
  have hn : 3 * (n / 4) ≤ n := by omega
  rw [decodeText_of_checked policy hwhole hascii] at hdec
  rcases decodeGroups_cases policy hwhole hascii with
    h | ⟨-, h⟩ | ⟨ys, h, hclean, hlen⟩ | ⟨ys, pre, c0, c1, c2, c3, post, h, hat, hlen⟩ <;>
    rw [h] at hdec <;> cases hdec
  · have hcount : (text.drop (n - 4)).count padChar = 0 :=
      List.count_eq_zero.2 fun hpad => hclean (List.mem_of_mem_drop hpad)
    exact ⟨hlen.le, hn, fun _ => hlen, fun _ hpad => absurd hpad hclean, fun _ => by
      rw [hcount]; exact ⟨hlen, by omega⟩⟩
  · have hlength : n = pre.length + 4 + post.length := hat.length_eq
    have hj : j = pre.length + if c2 = padChar then 2 else 3 := hat.findIdx_eq
    have hpre := hat.whole
    have hpad : padChar ∈ text := by
      rw [hat.text_eq]; rcases hat.padded with rfl | rfl <;> simp
    refine ⟨?_, hn, fun hnot => absurd hpad hnot, fun _ _ => ?_, fun hstrict => ?_⟩
    · split at hlen <;> omega
    · by_cases h2 : c2 = padChar
      · rw [if_pos h2] at hlen hj; omega
      · rw [if_neg h2] at hlen hj; omega
    · obtain ⟨rfl, hcount⟩ := hat.count_last hstrict
      rw [List.length_nil] at hlength
      rw [hcount]
      by_cases h2 : c2 = padChar
      · rw [if_pos h2] at hlen ⊢; omega
      · rw [if_neg h2] at hlen ⊢; omega

end Sys2Proof.Machine
end

section
/-! `DECODE` as a command (42_decode.md R75, R77). -/

namespace Sys2Proof.Machine

/-- Settles O29: the engine completes with what `decodeText` gives of the captured input, and the steps of
the machine are those of the engine. -/
theorem decodeCompletesWithDecodedBytes : Obligations.DecodeCompletesWithDecodedBytes := by
  intro s hlegal hidle htodo hfits n
  obtain ⟨k, u, hk, hrun, hshows, hbuild, hinLen, hinBuf, hera, htodo', hreplies⟩ :=
    (State.started_decode_completes (hfits.trans hlegal.2)).exists_run htodo
  refine ⟨_, k, u, State.issue_startEngine .decode hidle hfits, rfl, hk, hrun, fun ys hdec => ?_,
    fun e hdec => ?_, hinLen, hinBuf, hbuild, hera, htodo'.trans htodo, hreplies⟩
  · rw [hdec] at hshows
    obtain ⟨hstatus, hlen, hbytes⟩ := hshows
    exact ⟨hstatus, hlen, State.outBytes_of_startsWith hbytes⟩
  · rw [hdec] at hshows
    exact hshows

end Sys2Proof.Machine
end

section
/-! The whole rule of a write to `CMD`, by its code (43_control.md R80, R84 to R86). -/

namespace Sys2Proof.Machine

variable {s : State}

/-- Issued or ignored, `NOP` answers the state it finds (R84). -/
theorem exec_nop (s : State) : exec .nop s = .next s := by
  rw [exec_eq, effect, id, ite_self]

/-- `CLEAR` on an idle block (R85). -/
theorem exec_clear (hidle : s.status.busy = false) :
    exec .clear s = .next { s with status := ⟨false, false, .ok⟩, outLen := 0 } := by
  rw [exec_eq_issue, State.issue_idle hidle]
  simp only [effect, State.begin, hidle]

/-- Settles O12: `NOP` is the same whether it is issued or ignored. -/
theorem nopChangesNothing : Obligations.NopChangesNothing := ⟨rfl, exec_nop⟩

/-- Settles O13: a block that has just been reset is idle and has the values that `CLEAR` writes. -/
theorem clearAcknowledgesResult : Obligations.ClearAcknowledgesResult :=
  ⟨rfl, fun _ => exec_clear, exec_clear rfl⟩

/-- `STATUS` after a reserved code: `DONE` and `ERR` 5 (R17 to R19, R86). -/
theorem readReply_status_badCommand (h : s.status = ⟨false, true, .badCommand⟩) :
    s.readReply .w32 0x04 = .data .w32 0x00000052 := by
  rw [readReply_status, h]; rfl

/-- Settles O14: both rows have the one effect of a reserved code, which the write to `CMD` has on a state
with the same block. -/
theorem reservedCodeReportsBadCommand : Obligations.ReservedCodeReportsBadCommand := by
  intro s op hidle
  refine ⟨⟨?row47, ?row8F, readReply_status_badCommand rfl⟩, fun hop ign rest hm => ?written⟩
  case row47 => rw [exec_eq_issue, State.issue_idle hidle]; rfl
  case row8F => rw [exec_eq_issue, State.issue_idle hidle]; rfl
  case written =>
    have hsame := s.sameBlock_written rest .written
    have hstep := step_of_commandWrite hm
    rw [decodeWord_commandWord, exec_reserved hop (hsame.status ▸ hidle)] at hstep
    exact ⟨_, hstep, rfl, rfl, hsame.effect (.reserved8F op), readReply_status_badCommand rfl,
      readReply_outLen _⟩

/-- Settles O15: the write runs the command of the code on the state that has the write's response, where
each command's issue is known. -/
theorem commandIssueByCode : Obligations.CommandIssueByCode := by
  intro s v rest hm op t
  have hstep : step s = exec (decodeOp op) t := step_of_commandWrite hm
  have hcode : ∀ c, op = c → step s = exec (decodeOp c) t := fun _ h => h ▸ hstep
  refine ⟨fun hb => ?busy, fun hidle => ⟨fun h => ?nop, fun h => ?clear, fun h hfits => ?encode,
    fun h hfits => ?decode, fun h hbeyond => ?capacity, fun h => ?reserved⟩⟩
  case busy => rw [hstep, exec_eq_issue, State.issue_busy (s := t) hb]
  case nop => exact (hcode _ h).trans (exec_nop t)
  case clear => exact (hcode _ h).trans (exec_clear (s := t) hidle)
  case encode => exact (hcode _ h).trans (State.issue_startEngine (s := t) .encode hidle hfits)
  case decode => exact (hcode _ h).trans (State.issue_startEngine (s := t) .decode hidle hfits)
  case capacity =>
    obtain ⟨hencode, hdecode⟩ := exec_beyond (s := t) hidle hbeyond
    exact h.elim (fun h => (hcode _ h).trans hencode) fun h => (hcode _ h).trans hdecode
  case reserved => exact hstep.trans (exec_reserved (s := t) h hidle)

end Sys2Proof.Machine
end

section
/-! A running command: what it shows, that it completes, and that the host cannot disturb it (43_control.md
R81 to R83, R87). -/

namespace Sys2Proof.Machine

variable {s t : State} {e : Event} {rest : List Event}

namespace State

/-- `STATUS` while a command runs (R83). -/
theorem Inv.status_of_busy (hi : s.Inv) (hb : s.status.busy = true) :
    s.status = ⟨true, false, .ok⟩ := by
  have hdone := hi.busyNotDone hb
  calc s.status = ⟨s.status.busy, s.status.done, s.status.err⟩ := rfl
    _ = ⟨true, false, .ok⟩ := by rw [hb, hdone, hi.errWhenDone hdone]

theorem Inv.outLen_of_busy (hi : s.Inv) (hb : s.status.busy = true) : s.outLen = 0 :=
  hi.noResult (hi.busyNotDone hb)

theorem remaining_le (s : State) : s.remaining ≤ s.eng.n.toNat + 2 := by
  simp only [remaining]; split_ifs <;> omega

/-- The engine is idle once it has taken the steps that remain. -/
theorem engineSteps_idle_of_remaining_le (k : Nat) (h : s.remaining ≤ k) :
    (State.engineSteps k s).status.busy = false := by
  induction k generalizing s with
  | zero => exact Bool.eq_false_iff.2 fun hb => absurd (remaining_pos hb) (Nat.not_lt.2 h)
  | succ k ih =>
    cases hb : s.status.busy
    · rwa [engineSteps_idle _ hb]
    · exact ih (Nat.le_of_lt_succ ((remaining_engineStep_lt hb).trans_le h))

end State

/-- Settles O49: with the invariant `BUSY` is the one flag set and there is no result. -/
theorem runningCommandShowsOnlyBusy : Obligations.RunningCommandShowsOnlyBusy := by
  intro s hi hb
  rw [readReply_status, readReply_outLen, hi.status_of_busy hb, hi.outLen_of_busy hb]
  exact ⟨rfl, rfl⟩

/-- Settles O31: every engine step takes the block nearer to the completion, which leaves it idle and
done. -/
theorem runningCommandCompletes : Obligations.RunningCommandCompletes := by
  intro s _ hb htodo
  have hidle := s.engineSteps_idle_of_remaining_le s.remaining (Nat.le_refl _)
  have hruns : s.RunsOrDone := fun h => by rw [hb] at h; cases h
  exact ⟨s.remaining, _, s.remaining_le, run_eq_engineSteps htodo _, hidle,
    hruns.engineSteps _ hidle⟩

/-! ### The host's traffic -/

/-- While a command runs, a step other than a reset is the engine's or leaves the block (R83, R105). -/
theorem sameBlock_or_engine_of_busy (hb : s.status.busy = true) (h : step s = .next t)
    (hreset : ∀ rest, s.todo ≠ .reset :: rest) :
    s.SameBlock t ∨
      ((s.todo = [] ∨ ∃ rest, s.todo = .engine :: rest) ∧ s.engineStep.SameBlock t) := by
  have busy : s.status.busy ≠ false := ne_false_of_eq_true hb
  cases stepEffect_of_step h with
  | keeps hsame => exact .inl hsame
  | engine hm hsame => exact .inr ⟨hm, hsame⟩
  | reset rest hm _ => exact absurd hm (hreset rest)
  | command hidle | inLen hidle | inBuf hidle => exact absurd hidle busy

theorem step_of_engine (hm : s.todo = .engine :: rest) :
    ∃ t, step s = .next t ∧ t.todo = rest ∧ s.engineStep.SameBlock t := by
  obtain ⟨-, -, -, -, htodo, -⟩ := { s with todo := rest }.engineStep_frame
  exact ⟨_, step_of_todo hm, htodo, (s.sameBlock_todo rest).engineStep⟩

theorem step_of_access (he : e.isAccess = true) (hm : s.todo = e :: rest) :
    ∃ t, step s = .next t ∧ t.todo = rest := by
  cases e with
  | read w off => obtain ⟨t, hstep, -, htodo, -⟩ := step_of_read hm; exact ⟨t, hstep, htodo⟩
  | write w off v => obtain ⟨t, hstep, htodo, -⟩ := step_of_write hm; exact ⟨t, hstep, htodo⟩
  | poll | engine | reset => cases he

/-- While a command runs, a read or a write leaves the block (R40, R105). -/
theorem step_of_access_busy (hb : s.status.busy = true) (he : e.isAccess = true)
    (hm : s.todo = e :: rest) : ∃ t, step s = .next t ∧ t.todo = rest ∧ s.SameBlock t := by
  obtain ⟨t, hstep, htodo⟩ := step_of_access he hm
  obtain ⟨hreset, hengine⟩ : e ≠ .reset ∧ e ≠ .engine := by
    constructor <;> rintro rfl <;> cases he
  have hhead : ∀ e' r, s.todo = e' :: r → e = e' := fun _ _ h =>
    (List.cons.inj (hm.symm.trans h)).1
  have heffect := sameBlock_or_engine_of_busy hb hstep fun r h => hreset (hhead _ r h)
  refine ⟨t, hstep, htodo, heffect.resolve_right ?_⟩
  rintro ⟨hnil | ⟨r, h⟩, -⟩
  · rw [hm] at hnil; cases hnil
  · exact hengine (hhead _ r h)

/-- A move of the host or the engine takes the block where the engine alone does. -/
theorem step_undisturbed (hb : s.status.busy = true) (he : e.isAccess = true ∨ e = .engine)
    (hm : s.todo = e :: rest) :
    ∃ t, step s = .next t ∧ t.todo = rest ∧ (State.engineSteps ([e].count .engine) s).SameBlock t := by
  rcases he with he | rfl
  · have hcount : [e].count .engine = 0 :=
      List.count_eq_zero.2 fun hmem => by cases List.mem_singleton.1 hmem; cases he
    rw [hcount]; exact step_of_access_busy hb he hm
  · exact step_of_engine hm

/-- Moves of the host and the engine take the block where the engine alone does, as long as it is busy. -/
theorem run_undisturbed (es : List Event) (hes : ∀ e ∈ es, e.isAccess = true ∨ e = .engine)
    (hbusy : ∀ j, j ≤ es.count .engine → (State.engineSteps j s).status.busy = true)
    (hm : s.todo = es ++ rest) :
    ∃ u, run es.length s = .next u ∧ u.todo = rest ∧
      (State.engineSteps (es.count .engine) s).SameBlock u := by
  induction es generalizing s with
  | nil => exact ⟨s, rfl, hm, State.SameBlock.refl s⟩
  | cons e es ih =>
    obtain ⟨he, hes⟩ := List.forall_mem_cons.1 hes
    have hcount : (e :: es).count .engine = [e].count .engine + es.count .engine :=
      List.count_append (l₁ := [e])
    rw [hcount] at hbusy ⊢
    obtain ⟨t, hstep, htodo, hsame⟩ := step_undisturbed (hbusy 0 (Nat.zero_le _)) he hm
    have hbusy' : ∀ j, j ≤ es.count .engine → (State.engineSteps j t).status.busy = true := by
      intro j hj
      rw [(hsame.engineSteps j).status, ← State.engineSteps_add]
      exact hbusy _ (Nat.add_le_add_left hj _)
    obtain ⟨u, hrun, hrest, hu⟩ := ih hes hbusy' htodo
    refine ⟨u, (run_succ hstep).trans hrun, hrest, ?_⟩
    rw [State.engineSteps_add]
    exact (hsame.engineSteps _).trans hu

/-- Settles O33: the moves before it leave the engine's last step what it is alone, and with the invariant
the result is the block's. -/
theorem hostCannotDisturbRunningCommand : Obligations.HostCannotDisturbRunningCommand := by
  refine ⟨fun s es rest hes hbusy => ⟨run_undisturbed es hes hbusy, fun hm => ?_⟩,
    fun s t => sameBlock_or_engine_of_busy⟩
  obtain ⟨t, hrun, htodo, ht⟩ := run_undisturbed es hes hbusy hm
  obtain ⟨u, hstep, hrest, hu⟩ := step_of_engine htodo
  have hsame : (State.engineSteps (es.count .engine + 1) s).SameBlock u := by
    rw [State.engineSteps_add]; exact ht.engineStep.trans hu
  refine ⟨u, ?_, hrest, hsame, fun hi => hsame.result (hi.engineSteps _)⟩
  rw [run_add hrun, run_succ hstep]; rfl

end Sys2Proof.Machine
end

section
/-! No error state: nothing stops the machine, and an idle block keeps its state (60_exceptions.md R89,
R101). -/

namespace Sys2Proof.Machine

/-- Every move answers a next state, a write that issues a command included (R89). -/
theorem exists_step (s : State) : ∃ t, step s = .next t := by
  rcases step_cases s with ⟨-, hstep⟩ | ⟨e, rest, hm, hstep⟩
  · exact ⟨_, hstep⟩
  · cases e with
    | read | poll | engine | reset => exact ⟨_, hstep⟩
    | write w off v => obtain ⟨t, hnext, -⟩ := step_of_write hm; exact ⟨t, hnext⟩

theorem State.safeFor (k : Nat) (s : State) : s.SafeFor k := by
  induction k generalizing s with
  | zero => exact ⟨s, rfl⟩
  | succ k ih =>
    obtain ⟨t, hstep⟩ := exists_step s
    obtain ⟨u, hrun⟩ := ih t
    exact ⟨u, (run_succ hstep).trans hrun⟩

/-- Settles O6: every step has a next state, so by induction every run does; `exec_eq` says which one a
command has. -/
theorem machineNeverStops : Obligations.MachineNeverStops :=
  ⟨State.safeFor, fun i s => ⟨_, exec_eq i s⟩⟩

/-- Settles O7: with no move to come a step is the engine's, which an idle block does not take. -/
theorem idleBlockKeepsItsState : Obligations.IdleBlockKeepsItsState := by
  intro s hidle
  have hkeep : s.engineStep = s := State.engineStep_idle hidle
  refine ⟨hkeep, fun hnil => ?_⟩
  rw [step_of_nil hnil, hkeep]

end Sys2Proof.Machine
end

section
/-! What a write while busy and a reset do (70_reset_and_hazards.md R102, R105). -/

namespace Sys2Proof.Machine

/-- Settles O48: a legal write is acknowledged, and the step of an access to a busy block leaves the
block, wherever the access goes. -/
theorem writesWhileBusyAreIgnored : Obligations.WritesWhileBusyAreIgnored := by
  intro s w off v rest hm hbusy hlegal _
  obtain ⟨t, hstep, htodo, -, hacknowledged⟩ := (busErrorExactlyOnIllegalAccess s w off rest).2 v hm
  obtain ⟨u, hstep', -, hsame⟩ := step_of_access_busy hbusy rfl hm
  cases hstep.symm.trans hstep'
  exact ⟨t, hstep, hacknowledged hlegal, htodo, hsame⟩

/-- An idle block with no move to come stays in its state for any number of steps (R101). -/
theorem run_of_idle {s : State} (hidle : s.status.busy = false) (hnil : s.todo = []) (k : Nat) :
    run k s = .next s := by
  rw [run_eq_engineSteps hnil, State.engineSteps_idle k hidle]

/-- A reset takes the next step, whatever the block does, and leaves the moves to come (R102). -/
theorem step_of_reset {s : State} {rest : List Event} (hm : s.todo = .reset :: rest) :
    step s = .next { s with todo := rest }.resetBlock := step_of_todo hm

/-- Settles O9: a reset leaves the block idle, so with no move to come nothing more happens. -/
theorem resetAbandonsRunningCommand : Obligations.ResetAbandonsRunningCommand := by
  intro s rest hm
  refine ⟨_, step_of_reset hm, rfl, rfl, rfl, fun _ => ⟨rfl, rfl⟩, rfl, rfl, rfl, fun hnil => ?_⟩
  have hidle : { s with todo := rest }.resetBlock.status.busy = false := rfl
  exact run_of_idle hidle hnil

end Sys2Proof.Machine
end
